-- ==== Sys2Proof/Word.lean ====
section
/-! DEFINITION. The word types of SXC (spec/00_scope.md R9, R12): bit 0 is the least significant bit. -/

namespace Sys2Proof

/-- A byte: 8 bits, values 0..255 (R9). -/
abbrev Byte := BitVec 8

/-- A command word of the command port: 24 bits (R9, R101). -/
abbrev CmdWord := BitVec 24

/-- A 4-bit field of the command word: OP, TO, FROM or RSV (R101). -/
abbrev Nibble := BitVec 4

end Sys2Proof
end

