-- ==== Sys2Proof/Syntax.lean ====
section
/-! DEFINITION. The commands of SXC, one constructor per row of spec/opcode_table.json (spec/30_encoding.md R102, R107).
FEED has one constructor per input byte class (R105). A word that the decoder maps to ILLEGAL is no row of the table and
no term here: the step runs rule R261 on it. -/

namespace Sys2Proof

/-- One command of the table of R107. -/
inductive Instr where
  /-- NOP: no operation (R260) -/
  | nop
  /-- FEED of SOX, the byte `0xF0` (R221) -/
  | feedSox
  /-- FEED of EOX, the byte `0xF7` (R222, R226, R227) -/
  | feedEox
  /-- FEED of a data byte, `b < 0x80` (R223, R225, R227) -/
  | feedData (b : Byte)
  /-- FEED of a status byte other than SOX and EOX (R224, R228) -/
  | feedStatus (b : Byte)
  /-- TAKE: take the completed frame (R230) -/
  | take
  /-- RESET: reset the whole block (R300) -/
  | reset
  /-- USTART: start a new packed buffer (R161) -/
  | ustart
  /-- UBYTE: take one packed byte (R162) -/
  | ubyte (b : Byte)
  /-- PSTART: start a new unpacked buffer (R191) -/
  | pstart
  /-- PBYTE: take one unpacked byte (R192) -/
  | pbyte (b : Byte)
  /-- PFLUSH: end the unpacked buffer (R193) -/
  | pflush
  /-- EXTRACT: the bit field `[lo, hi)` of `b`, where `lo` is FROM and `hi` is TO (R141) -/
  | extract (b : Byte) (lo hi : Nibble)
  deriving DecidableEq, Repr

end Sys2Proof
end

