-- ==== Sys2Proof/Config.lean ====
section
/-! DEFINITION. What one build of SXC fixes (spec/00_scope.md R8, R10): the frame memory's capacity, which the spec
leaves OPEN, and the constants the document gives. All four units are present in every build (R11), so no field says
so. A claim over every state quantifies over every configuration, since the state carries its own. -/

namespace Sys2Proof

/-- `MAX_FRAME_LEN` (R8): a natural number of bytes, counting the leading `0xF0` and the trailing `0xF7`, or
unbounded, which is the document's own behaviour. -/
inductive Capacity where
  /-- the document's frame buffer, which has no size -/
  | unbounded
  /-- a frame memory of `max` bytes -/
  | bytes (max : Nat)
  deriving DecidableEq, Repr

/-- What is fixed when SXC is built (R8, R47). No command and no reset changes it (log entry 1). -/
structure Config where
  /-- `MAX_FRAME_LEN` (R8) -/
  maxFrameLen : Capacity
  deriving DecidableEq, Repr

/-- R8: a finite `MAX_FRAME_LEN` is at least 2. -/
def Config.wf (c : Config) : Bool :=
  match c.maxFrameLen with
  | .unbounded => true
  | .bytes max => decide (2 ≤ max)

/-- `SOX`: the byte that starts a frame (R10). -/
abbrev soxByte : Byte := 0xF0

/-- `EOX`: the byte that ends a frame (R10). -/
abbrev eoxByte : Byte := 0xF7

/-- `STATUS_MASK`: a byte with this bit set is a status byte (R10, R17). -/
abbrev statusMask : Byte := 0x80

end Sys2Proof
end

