-- ==== Sys2Proof/WellFormed.lean ====
section
/-! DEFINITION. Which terms of Instr are commands: the conditions that spec/opcode_table.json and spec/30_encoding.md
(R104, R105) put on the operands. -/

namespace Sys2Proof

/-- The operand conditions of R104 and R105. -/
def Instr.wellFormed : Instr → Bool
  | .feedData b => decide (b &&& statusMask = 0)
  | .feedStatus b => decide (b &&& statusMask ≠ 0) && decide (b ≠ soxByte) && decide (b ≠ eoxByte)
  | .extract _ lo hi => decide (lo.toNat < hi.toNat) && decide (hi.toNat ≤ 8)
  | .nop => true
  | .feedSox => true
  | .feedEox => true
  | .take => true
  | .reset => true
  | .ustart => true
  | .ubyte _ => true
  | .pstart => true
  | .pbyte _ => true
  | .pflush => true

end Sys2Proof
end

