-- ==== Sys2Proof/Decode.lean ====
section
/-! DEFINITION. The command word's fields, the decoder and the encoder (spec/30_encoding.md R101, R102, R105, R107,
R108, R112, R113), and the command map of R107 as a table of its own. The decoder is total over all 2^24 words and
says by name why a word is ILLEGAL. -/

namespace Sys2Proof

/-! ### Fields (R101) -/

/-- OP = `w[23:20]`. -/
def opField (w : CmdWord) : Nibble := w.extractLsb' 20 4

/-- TO = `w[19:16]`. -/
def toField (w : CmdWord) : Nibble := w.extractLsb' 16 4

/-- FROM = `w[15:12]`. -/
def fromField (w : CmdWord) : Nibble := w.extractLsb' 12 4

/-- RSV = `w[11:8]`. -/
def rsvField (w : CmdWord) : Nibble := w.extractLsb' 8 4

/-- DATA = `w[7:0]`. -/
def dataField (w : CmdWord) : Byte := w.extractLsb' 0 8

/-- `w = {OP, TO, FROM, RSV, DATA}` (R101): each field at its place. -/
def joinFields (op to_ from_ rsv : Nibble) (data : Byte) : CmdWord :=
  (op.setWidth 24 <<< 20) ||| (to_.setWidth 24 <<< 16) ||| (from_.setWidth 24 <<< 12) ||| (rsv.setWidth 24 <<< 8)
    ||| data.setWidth 24

/-! ### Operations (R102) -/

/-- The ten operations that OP selects (R102). -/
inductive Op where
  | nop | feed | take | reset | ustart | ubyte | pstart | pbyte | pflush | extract
  deriving DecidableEq, Repr

/-- The OP value of each operation (R102). -/
def Op.code : Op → Nibble
  | .nop => 0x0
  | .feed => 0x1
  | .take => 0x2
  | .reset => 0x3
  | .ustart => 0x4
  | .ubyte => 0x5
  | .pstart => 0x6
  | .pbyte => 0x7
  | .pflush => 0x8
  | .extract => 0x9

/-- The operation of an OP value; 0xA..0xF are reserved (R102, R109). -/
def opOfCode (op : Nibble) : Option Op :=
  match op.toNat with
  | 0x0 => some .nop
  | 0x1 => some .feed
  | 0x2 => some .take
  | 0x3 => some .reset
  | 0x4 => some .ustart
  | 0x5 => some .ubyte
  | 0x6 => some .pstart
  | 0x7 => some .pbyte
  | 0x8 => some .pflush
  | 0x9 => some .extract
  | _ => none

/-! ### Input byte classes of FEED (R105) -/

/-- The four classes of an input byte (R105). -/
inductive ByteClass where
  | sox | eox | status | data
  deriving DecidableEq, Repr

/-- The class of a byte, first match wins (R105). Real-time bytes 0xF8..0xFF are status bytes (R106). -/
def classify (b : Byte) : ByteClass :=
  if b = soxByte then .sox
  else if b = eoxByte then .eox
  else if b &&& statusMask ≠ 0 then .status
  else .data

/-- FEED of `b` as the row of its class (R105, R107). -/
def feedInstr (b : Byte) : Instr :=
  match classify b with
  | .sox => .feedSox
  | .eox => .feedEox
  | .status => .feedStatus b
  | .data => .feedData b

/-! ### Decoder (R112) -/

/-- Why a word is ILLEGAL: the five conditions of R108. -/
inductive Illegal where
  /-- OP is 0xA..0xF -/
  | reservedOp
  /-- RSV is not 0 -/
  | reservedField
  /-- TO or FROM is not 0 and OP is not EXTRACT -/
  | boundsOutsideExtract
  /-- DATA is not 0 on an operation that has no byte operand -/
  | dataNotZero
  /-- EXTRACT without FROM < TO <= 8 -/
  | extractBounds
  deriving DecidableEq, Repr

/-- A command without a byte operand needs DATA = 0 (R108 item 4). -/
def noOperand (d : Byte) (i : Instr) : Except Illegal Instr :=
  if d = 0 then .ok i else .error .dataNotZero

/-- EXTRACT needs FROM < TO <= 8 (R104, R108 item 5). -/
def decodeExtract (d : Byte) (lo hi : Nibble) : Except Illegal Instr :=
  if lo.toNat < hi.toNat ∧ hi.toNat ≤ 8 then .ok (.extract d lo hi) else .error .extractBounds

/-- The case on OP of R112, once RSV, TO and FROM have passed. -/
def decodeOp (op : Op) (lo hi : Nibble) (d : Byte) : Except Illegal Instr :=
  match op with
  | .nop => noOperand d .nop
  | .feed => .ok (feedInstr d)
  | .take => noOperand d .take
  | .reset => noOperand d .reset
  | .ustart => noOperand d .ustart
  | .ubyte => .ok (.ubyte d)
  | .pstart => noOperand d .pstart
  | .pbyte => .ok (.pbyte d)
  | .pflush => noOperand d .pflush
  | .extract => decodeExtract d lo hi

/-- The decoder, total over all 2^24 words (R112); an error is R112's ILLEGAL. -/
def decode (w : CmdWord) : Except Illegal Instr :=
  if rsvField w ≠ 0 then .error .reservedField
  else if opField w ≠ 0x9 ∧ (toField w ≠ 0 ∨ fromField w ≠ 0) then .error .boundsOutsideExtract
  else
    match opOfCode (opField w) with
    | none => .error .reservedOp
    | some op => decodeOp op (fromField w) (toField w) (dataField w)

/-- The host's reading of a table word: the 24-bit word whose low `nbits` bits are `w`, and the command it decodes to. -/
def decodeTableWord (nbits w : Nat) : Option Instr :=
  match decode (BitVec.ofNat 24 (w % 2 ^ nbits)) with
  | .ok i => some i
  | .error _ => none

/-! ### Encoder (R101, R107, R113) -/

/-- The operation a command is a form of (R102, R107). -/
def Instr.op : Instr → Op
  | .nop => .nop
  | .feedSox => .feed
  | .feedEox => .feed
  | .feedData _ => .feed
  | .feedStatus _ => .feed
  | .take => .take
  | .reset => .reset
  | .ustart => .ustart
  | .ubyte _ => .ubyte
  | .pstart => .pstart
  | .pbyte _ => .pbyte
  | .pflush => .pflush
  | .extract _ _ _ => .extract

/-- The DATA field of a command (R101). -/
def Instr.data : Instr → Byte
  | .nop => 0
  | .feedSox => soxByte
  | .feedEox => eoxByte
  | .feedData b => b
  | .feedStatus b => b
  | .take => 0
  | .reset => 0
  | .ustart => 0
  | .ubyte b => b
  | .pstart => 0
  | .pbyte b => b
  | .pflush => 0
  | .extract b _ _ => b

/-- The FROM field of a command (R101). -/
def Instr.fromBound : Instr → Nibble
  | .nop => 0
  | .feedSox => 0
  | .feedEox => 0
  | .feedData _ => 0
  | .feedStatus _ => 0
  | .take => 0
  | .reset => 0
  | .ustart => 0
  | .ubyte _ => 0
  | .pstart => 0
  | .pbyte _ => 0
  | .pflush => 0
  | .extract _ lo _ => lo

/-- The TO field of a command (R101). -/
def Instr.toBound : Instr → Nibble
  | .nop => 0
  | .feedSox => 0
  | .feedEox => 0
  | .feedData _ => 0
  | .feedStatus _ => 0
  | .take => 0
  | .reset => 0
  | .ustart => 0
  | .ubyte _ => 0
  | .pstart => 0
  | .pbyte _ => 0
  | .pflush => 0
  | .extract _ _ hi => hi

/-- The word of a command, with RSV = 0 (R101, R107, R113). -/
def encode (i : Instr) : CmdWord := joinFields i.op.code i.toBound i.fromBound 0 i.data

/-! ### The command map of R107 -/

/-- The thirteen rows of R107. -/
inductive Row where
  | nop | feedSox | feedEox | feedData | feedStatus | take | reset | ustart | ubyte | pstart | pbyte | pflush | extract
  deriving DecidableEq, Repr

/-- The match column of R107. -/
def Row.pattern : Row → CmdWord
  | .nop => 0x000000
  | .feedSox => 0x1000F0
  | .feedEox => 0x1000F7
  | .feedData => 0x100000
  | .feedStatus => 0x100080
  | .take => 0x200000
  | .reset => 0x300000
  | .ustart => 0x400000
  | .ubyte => 0x500000
  | .pstart => 0x600000
  | .pbyte => 0x700000
  | .pflush => 0x800000
  | .extract => 0x900000

/-- The mask column of R107. -/
def Row.mask : Row → CmdWord
  | .nop => 0xFFFFFF
  | .feedSox => 0xFFFFFF
  | .feedEox => 0xFFFFFF
  | .feedData => 0xFFFF80
  | .feedStatus => 0xFFFF80
  | .take => 0xFFFFFF
  | .reset => 0xFFFFFF
  | .ustart => 0xFFFFFF
  | .ubyte => 0xFFFF00
  | .pstart => 0xFFFFFF
  | .pbyte => 0xFFFF00
  | .pflush => 0xFFFFFF
  | .extract => 0xF00F00

/-- The extra-condition column of R107. -/
def Row.extra (r : Row) (w : CmdWord) : Bool :=
  match r with
  | .feedStatus => decide (w.extractLsb' 0 8 ≠ 0xF0#8) && decide (w.extractLsb' 0 8 ≠ 0xF7#8)
  | .extract =>
    decide ((w.extractLsb' 12 4).toNat < (w.extractLsb' 16 4).toNat) && decide ((w.extractLsb' 16 4).toNat ≤ 8)
  | .nop => true
  | .feedSox => true
  | .feedEox => true
  | .feedData => true
  | .take => true
  | .reset => true
  | .ustart => true
  | .ubyte => true
  | .pstart => true
  | .pbyte => true
  | .pflush => true

/-- "A row matches word `w` when `w & mask = match` and the row's extra condition holds" (R107). -/
def Row.matchesWord (r : Row) (w : CmdWord) : Bool := decide (w &&& r.mask = r.pattern) && r.extra w

/-- The row of R107 a command stands for. -/
def Instr.row : Instr → Row
  | .nop => .nop
  | .feedSox => .feedSox
  | .feedEox => .feedEox
  | .feedData _ => .feedData
  | .feedStatus _ => .feedStatus
  | .take => .take
  | .reset => .reset
  | .ustart => .ustart
  | .ubyte _ => .ubyte
  | .pstart => .pstart
  | .pbyte _ => .pbyte
  | .pflush => .pflush
  | .extract _ _ _ => .extract

end Sys2Proof
end

