-- ==== Sys2Proof/Machine/State.lean ====
section
/-! DEFINITION. The architectural state of SXC (spec/10_state.md), as plain data, with the two things of the outside world
that a step reads and writes: the command port's input and the event record. -/

namespace Sys2Proof.Machine

/-- The error codes of R270, held in LAST_ERR and emitted on ERR. -/
inductive ErrCode where
  /-- 0: the reset value of LAST_ERR, never emitted -/
  | none
  /-- 1: a status byte other than `0xF0` and `0xF7` fed while RECEIVING -/
  | protocol
  /-- 2: a data byte or `0xF7` fed while RECEIVING with LEN = MAX_FRAME_LEN -/
  | overflow
  /-- 3: a command word decoded as ILLEGAL -/
  | illegalCmd
  deriving DecidableEq, Repr

/-- An event of an output channel (R44). -/
inductive Event where
  /-- FRAME: `Some(bytes)` or `None`, emitted by TAKE -/
  | frame (f : Option (List Byte))
  /-- ERR: an error code 1..3, emitted by any raise -/
  | err (c : ErrCode)
  /-- UOUT: one byte, emitted by UBYTE -/
  | uout (b : Byte)
  /-- POUT: one byte, emitted by PBYTE and PFLUSH -/
  | pout (b : Byte)
  /-- XOUT: one value 0..255, emitted by EXTRACT -/
  | xout (v : Byte)
  deriving DecidableEq, Repr

/-- What the outside world presents to SXC in one step: a command word (R100), or the hardware reset input (R301). -/
inductive PortInput where
  /-- a command word on the command port -/
  | word (w : CmdWord)
  /-- `rst` asserted: one step of hardware reset, in which no command word is decoded -/
  | rst
  deriving DecidableEq, Repr

/-- The frame memory MEM (R35): a sparse list of (index, byte) pairs. Its canonical form is `Memory.wf`. An index the list
does not name reads as `unlistedByte`. -/
abbrev Memory := List Host.Cell

/-- What an index of MEM that the list does not name reads as. DESIGN CHOICE, unsafe (log entry 4): R48 leaves MEM's
contents after reset unspecified. -/
abbrev unlistedByte : Byte := 0

/-- The canonical form: addresses strictly rising, and no entry equal to what an unlisted address reads as. -/
abbrev Memory.wf (m : Memory) : Prop :=
  m.Pairwise (fun c d => c.1 < d.1) ∧ ∀ c ∈ m, c.2 ≠ unlistedByte

/-- The state of SXC. The field comments name the rule of spec/10_state.md that gives each. -/
structure State where
  /-- what the build fixes: `MAX_FRAME_LEN` (R8). The model's own field: R47 says it is no state of the block, and
  every step leaves it as it is (log entry 1) -/
  config : Config
  /-- RX: true is RECEIVING, false is IDLE (R32) -/
  rx : Bool
  /-- FV: a completed frame is held and has not been taken (R33) -/
  fv : Bool
  /-- LEN: the number of valid bytes in the frame memory (R34) -/
  len : Nat
  /-- MEM: the frame memory (R35) -/
  mem : Memory
  /-- U_POS: the unpacker's position in the current run of 8 (R38) -/
  uPos : BitVec 3
  /-- U_HB: the high-bits byte of the current run (R38) -/
  uHb : Byte
  /-- P_CNT: the number of bytes of the current pack group received and not yet emitted (R39) -/
  pCnt : BitVec 3
  /-- P_BUF[0..5]: those bytes (R39) -/
  pBuf : Vector Byte 6
  /-- LAST_ERR: the code of the most recent error event (R42) -/
  lastErr : ErrCode
  /-- what the host will present, the next step's input first (R31, R100). The model's own field (log entry 2) -/
  port : List PortInput
  /-- every event emitted so far, oldest first (R44, R263). The model's own field (log entry 3) -/
  out : List Event
  deriving DecidableEq, Repr

/-- SXC stops with no fault: "It has no refusal, stuck or hang outcome: every word finishes in one step" (R262), and
an error is an event and a LAST_ERR code (R272), not a stop. So no constructor exists, nothing raises a fault, and no
claim can be lost or gained by one (safe; log entry 16). -/
inductive Fault where
  deriving DecidableEq, Repr

/-- Why a step has no meaning. -/
inductive Refusal where
  /-- raised by an arm of `exec` whose instruction has no meaning yet; safe, since the model then proves nothing about
  it. No arm raises it: every instruction has its meaning -/
  | notModelled (mnemonic : String)
  deriving DecidableEq, Repr

/-- The state right after reset of an SXC built as `c` (R48, R301), with nothing presented on the port and no event
emitted. MEM, U_HB and P_BUF are unspecified there (R48, R40): that they hold 0 is a DESIGN CHOICE (log entries 4, 5
and 6). -/
def State.resetOf (c : Config) : State where
  config := c
  rx := false
  fv := false
  len := 0
  mem := []
  uPos := 0
  uHb := 0
  pCnt := 0
  pBuf := Vector.replicate 6 0
  lastErr := .none
  port := []
  out := []

/-- The state right after reset, for the document's own unbounded frame memory (R8, log entry 1). -/
def State.reset : State := State.resetOf { maxFrameLen := .unbounded }

end Sys2Proof.Machine
end

