-- ==== Sys2Proof/Machine/Ops.lean ====
section
/-! DEFINITION. The named operations over SXC's memory and registers, and the raising of an error, which is all that SXC
has of an exception (spec/20_memory.md R70 to R76, spec/60_exceptions.md R270 to R278). -/

namespace Sys2Proof.Machine

/-! ### The frame memory (R35, R72, R74: every access is one byte) -/

/-- `MemRead(a, 1)`: the byte at index `a`. -/
def memRead (m : Memory) (a : Nat) : Byte :=
  match m with
  | [] => unlistedByte
  | c :: rest => if c.1 = a then c.2 else memRead rest a

/-- A new entry at its place among rising addresses. -/
def insertCell (a : Nat) (v : Byte) (m : Memory) : Memory :=
  match m with
  | [] => [(a, v)]
  | c :: rest => if c.1 < a then c :: insertCell a v rest else (a, v) :: c :: rest

/-- The memory without any entry at `a`. -/
def eraseCell (a : Nat) (m : Memory) : Memory := m.filter (fun c => decide (c.1 ≠ a))

/-- `MemWrite(a, 1, v)`: writing what an unlisted index reads as removes the entry. -/
def memWrite (m : Memory) (a : Nat) (v : Byte) : Memory :=
  if v = unlistedByte then eraseCell a m else insertCell a v (eraseCell a m)

/-- `[MEM[0], ..., MEM[n-1]]` (R37). -/
def memBytes (m : Memory) (n : Nat) : List Byte := (List.range n).map (memRead m)

/-! ### The capacity (R8) -/

/-- `LEN < MAX_FRAME_LEN`; always so when it is unbounded (spec/43_frame_assembler.md). -/
def hasRoom (c : Config) (len : Nat) : Bool :=
  match c.maxFrameLen with
  | .unbounded => true
  | .bytes max => decide (len < max)

/-! ### Updates of the state -/

/-- `emit`: append events to the step's output, in order (R13, R44). -/
def State.emit (s : State) (evs : List Event) : State := { s with out := s.out ++ evs }

/-- Write the frame assembler's registers RX, FV and LEN (R32 to R34). -/
def State.setFrame (s : State) (rx fv : Bool) (len : Nat) : State := { s with rx := rx, fv := fv, len := len }

/-- `MemWrite(a, 1, v)` on the frame memory (R35). -/
def State.store (s : State) (a : Nat) (v : Byte) : State := { s with mem := memWrite s.mem a v }

/-- Write U_POS (R38). -/
def State.setUPos (s : State) (p : BitVec 3) : State := { s with uPos := p }

/-- Write U_HB (R38). -/
def State.setUHb (s : State) (b : Byte) : State := { s with uHb := b }

/-- Write P_CNT (R39). -/
def State.setPCnt (s : State) (n : BitVec 3) : State := { s with pCnt := n }

/-- `P_BUF[j] <- b`; P_BUF has entries 0..5 only (R39). -/
def State.setPBuf (s : State) (j : Nat) (b : Byte) : State := { s with pBuf := s.pBuf.setIfInBounds j b }

/-- What the host has still to present, after this step's input (R31). -/
def State.setPort (s : State) (p : List PortInput) : State := { s with port := p }

/-! ### Errors -/

/-- `raise Err(code)`: emit ERR(code) and write LAST_ERR (R272). This is the whole of taking an exception in SXC: no state
is saved, no mode or mask changes and no control is transferred (R277). There is no return from one (R278). -/
def State.raise (s : State) (c : ErrCode) : State := { s.emit [.err c] with lastErr := c }

/-! ### Reset -/

/-- Every register to its reset value of R48; MEM, U_HB and P_BUF are not written (R300). -/
def State.resetUnits (s : State) : State :=
  { s with rx := false, fv := false, len := 0, uPos := 0, pCnt := 0, lastErr := .none }

end Sys2Proof.Machine
end

