-- ==== Sys2Proof/Machine/Operands.lean ====
section
/-! DEFINITION. What the commands compute from their operand bytes and the units' buffers: the unpacked byte
(spec/41_unpacker.md R160), the packed group (spec/42_packer.md R190) and the extracted field (spec/40_bitfield.md
R140). The operand byte of a command is DATA, not extended or scaled (spec/30_encoding.md R103). -/

namespace Sys2Proof.Machine

/-- `d | ((hb & (1 << (pos-1))) << (8-pos))`, the byte emitted at position `pos` in 1..7 of a run (R160). Bit `pos-1`
of `hb` moves to bit 7, so no bit is lost at 8 bits. -/
def unpackByte (hb : Byte) (pos : Nat) (d : Byte) : Byte :=
  d ||| ((hb &&& (1#8 <<< (pos - 1))) <<< (8 - pos))

/-- `sum for j of (grp[j][7] << (from + j))`; the terms share no bit, so the sum is their OR (R190; DEDUCED,
log entry 12). -/
def highBitsFrom (j : Nat) (grp : List Byte) : Byte :=
  match grp with
  | [] => 0
  | b :: rest => ((b >>> 7) <<< j) ||| highBitsFrom (j + 1) rest

/-- The high-bits byte of a group of up to 7 bytes: bit j is bit 7 of byte j (R190). -/
def highBits (grp : List Byte) : Byte := highBitsFrom 0 grp

/-- A group as it is emitted: the high-bits byte, then the low 7 bits of each byte, in order (R190, R192, R193). -/
def packGroup (grp : List Byte) : List Byte := highBits grp :: grp.map (fun b => b &&& 0x7F#8)

/-- `[P_BUF[0], ..., P_BUF[P_CNT-1]]`, the bytes the packer holds (R39). -/
def State.heldBytes (s : State) : List Byte := s.pBuf.toList.take s.pCnt.toNat

/-- `(byte >> from) & ((1 << (to - from)) - 1)`, computed on natural numbers (R140, R13). -/
def extractField (b : Byte) (lo hi : Nibble) : Byte :=
  BitVec.ofNat 8 ((b.toNat >>> lo.toNat) &&& ((1 <<< (hi.toNat - lo.toNat)) - 1))

end Sys2Proof.Machine
end

