-- ==== Sys2Proof/Machine/BitField.lean ====
section
/-! DEFINITION. The bit-field extractor: EXTRACT (spec/40_bitfield.md). -/

namespace Sys2Proof.Machine

/-- EXTRACT: emit the field `[lo, hi)` of `b` on XOUT; no state is written (R141). -/
def execExtract (b : Byte) (lo hi : Nibble) (s : State) : Host.Outcome State Fault Refusal :=
  .next (s.emit [.xout (extractField b lo hi)])

end Sys2Proof.Machine
end

