-- ==== Sys2Proof/Machine/Control.lean ====
section
/-! DEFINITION. The control commands: NOP, RESET, and the meaning of an ILLEGAL word (spec/44_control.md R260, R261,
spec/70_reset_and_hazards.md R300). -/

namespace Sys2Proof.Machine

/-- NOP: skip (R260). -/
def execNop (s : State) : Host.Outcome State Fault Refusal := .next s

/-- RESET: every unit and LAST_ERR to the values of R48, without output (R300). -/
def execReset (s : State) : Host.Outcome State Fault Refusal := .next s.resetUnits

/-- An ILLEGAL word, whatever the reason: raise ILLEGAL_CMD and change nothing else (R261). -/
def execIllegal (_why : Illegal) (s : State) : Host.Outcome State Fault Refusal := .next (s.raise .illegalCmd)

end Sys2Proof.Machine
end

