-- ==== Sys2Proof/Machine/FrameAssembler.lean ====
section
/-! DEFINITION. The frame assembler: FEED in its four byte classes, and TAKE (spec/43_frame_assembler.md). -/

namespace Sys2Proof.Machine

/-! ### What FEED can do to the frame -/

/-- Begin a frame with its first byte, dropping whatever was held (R221). -/
def startFrame (s : State) (b : Byte) : State := (s.store 0 b).setFrame true false 1

/-- `MEM[LEN] <- b; LEN <- LEN + 1` (R223). -/
def appendByte (s : State) (b : Byte) : State := (s.store s.len b).setFrame s.rx s.fv (s.len + 1)

/-- Append the last byte and hold the frame as the completed one (R222). -/
def completeFrame (s : State) (b : Byte) : State := (s.store s.len b).setFrame false true (s.len + 1)

/-- Raise `c` and drop the frame in progress: `RX <- 0; LEN <- 0`, FV as it is (R224, R227). -/
def abortFrame (s : State) (c : ErrCode) : State := (s.raise c).setFrame false s.fv 0

/-! ### The commands -/

/-- FEED of SOX: start or restart a frame, in either state (R221). -/
def execFeedSox (s : State) : Host.Outcome State Fault Refusal := .next (startFrame s soxByte)

/-- FEED of EOX: ignored in IDLE (R226); completes the frame (R222), or overflows when LEN = MAX_FRAME_LEN (R227). -/
def execFeedEox (s : State) : Host.Outcome State Fault Refusal :=
  if s.rx then
    if hasRoom s.config s.len then .next (completeFrame s eoxByte) else .next (abortFrame s .overflow)
  else .next s

/-- FEED of a data byte: ignored in IDLE (R225); appended (R223), or overflows when LEN = MAX_FRAME_LEN (R227). The
decoder gives this meaning data bytes only (log entry 11). -/
def execFeedData (b : Byte) (s : State) : Host.Outcome State Fault Refusal :=
  if s.rx then
    if hasRoom s.config s.len then .next (appendByte s b) else .next (abortFrame s .overflow)
  else .next s

/-- FEED of a status byte other than SOX and EOX: ignored in IDLE (R228); a protocol error while RECEIVING, at every LEN.
The byte itself is discarded (R224), so the meaning does not use it. -/
def execFeedStatus (_b : Byte) (s : State) : Host.Outcome State Fault Refusal :=
  if s.rx then .next (abortFrame s .protocol) else .next s

/-- TAKE: return and clear the completed frame, or return None (R230). -/
def execTake (s : State) : Host.Outcome State Fault Refusal :=
  if s.fv then .next ((s.emit [.frame (some (memBytes s.mem s.len))]).setFrame s.rx false 0)
  else .next (s.emit [.frame none])

end Sys2Proof.Machine
end

