-- ==== Sys2Proof/Machine/Packer.lean ====
section
/-! DEFINITION. The 8-to-7-bit packer: PSTART, PBYTE and PFLUSH (spec/42_packer.md). -/

namespace Sys2Proof.Machine

/-- PSTART: `P_CNT <- 0`; bytes held are dropped silently (R191). -/
def execPstart (s : State) : Host.Outcome State Fault Refusal := .next (s.setPCnt 0)

/-- PBYTE: hold one of the first six bytes of a group, or emit the group of seven (R192). P_CNT never holds 7
(R39); the second branch would treat it as 6 (DEDUCED from R192's `else`, log entry 10). -/
def execPbyte (b : Byte) (s : State) : Host.Outcome State Fault Refusal :=
  if s.pCnt.toNat < 6 then .next ((s.setPBuf s.pCnt.toNat b).setPCnt (s.pCnt + 1))
  else .next ((s.emit ((packGroup (s.pBuf.toList ++ [b])).map .pout)).setPCnt 0)

/-- PFLUSH: emit the partial group, if there is one (R193). -/
def execPflush (s : State) : Host.Outcome State Fault Refusal :=
  if s.pCnt = 0 then .next s
  else .next ((s.emit ((packGroup s.heldBytes).map .pout)).setPCnt 0)

end Sys2Proof.Machine
end

