-- ==== Sys2Proof/Machine/Unpacker.lean ====
section
/-! DEFINITION. The 7-to-8-bit unpacker: USTART and UBYTE (spec/41_unpacker.md). -/

namespace Sys2Proof.Machine

/-- USTART: `U_POS <- 0`; a run in progress is dropped silently (R161). -/
def execUstart (s : State) : Host.Outcome State Fault Refusal := .next (s.setUPos 0)

/-- UBYTE: the high-bits byte of a run, or a data byte, which is emitted with its high bit; U_POS advances modulo 8
(R162). No byte is refused (R165). -/
def execUbyte (b : Byte) (s : State) : Host.Outcome State Fault Refusal :=
  if s.uPos = 0 then .next ((s.setUHb b).setUPos 1)
  else .next ((s.emit [.uout (unpackByte s.uHb s.uPos.toNat b)]).setUPos (s.uPos + 1))

end Sys2Proof.Machine
end

