-- ==== Sys2Proof/Machine/Dispatch.lean ====
section
/-! DEFINITION. The dispatch of a decoded command to its meaning (spec/44_control.md R262): one arm per constructor. -/

namespace Sys2Proof.Machine

def exec (i : Instr) (s : State) : Host.Outcome State Fault Refusal :=
  match i with
  | .nop => Sys2Proof.Machine.execNop s
  | .feedSox => Sys2Proof.Machine.execFeedSox s
  | .feedEox => Sys2Proof.Machine.execFeedEox s
  | .feedData b => Sys2Proof.Machine.execFeedData b s
  | .feedStatus b => Sys2Proof.Machine.execFeedStatus b s
  | .take => Sys2Proof.Machine.execTake s
  | .reset => Sys2Proof.Machine.execReset s
  | .ustart => Sys2Proof.Machine.execUstart s
  | .ubyte b => Sys2Proof.Machine.execUbyte b s
  | .pstart => Sys2Proof.Machine.execPstart s
  | .pbyte b => Sys2Proof.Machine.execPbyte b s
  | .pflush => Sys2Proof.Machine.execPflush s
  | .extract b lo hi => Sys2Proof.Machine.execExtract b lo hi s

end Sys2Proof.Machine
end

