-- ==== Sys2Proof/Machine/Port.lean ====
section
/-! DEFINITION. The command port and the hardware reset input: how a step comes by its input (spec/10_state.md R31,
spec/30_encoding.md R100, spec/70_reset_and_hazards.md R301). SXC stores no command words (R83): the port's list is what
the host has still to present. -/

namespace Sys2Proof.Machine

/-- The next input and the state in which it is processed: the input is consumed, whatever it is (R31, R83). -/
def nextInput (s : State) : Option (PortInput × State) :=
  match s.port with
  | [] => none
  | p :: rest => some (p, s.setPort rest)

/-- A step in which the host presents nothing: nothing happens ("SXC waits for nothing", R316; every state survives
between commands, R285). DEDUCED, log entry 2. -/
def idleStep (s : State) : Host.Outcome State Fault Refusal := .next s

/-- A step with `rst` asserted: exactly as RESET does (R301, log entry 8). -/
def hardwareReset (s : State) : Host.Outcome State Fault Refusal := .next s.resetUnits

/-- Present a word ahead of whatever the host has still to present. -/
def presentFirst (s : State) (w : CmdWord) : State := s.setPort (.word w :: s.port)

/-- Present a sequence of words after whatever the host has still to present. -/
def presentWords (s : State) (ws : List CmdWord) : State := s.setPort (s.port ++ ws.map .word)

end Sys2Proof.Machine
end

