-- ==== Sys2Proof/Machine/Step.lean ====
section
/-! DEFINITION. One step of SXC: the processing of one input to completion (spec/00_scope.md R14, spec/44_control.md
R262). -/

namespace Sys2Proof.Machine

/-- One command word, decoded and run by exactly one rule (R262). -/
def stepWord (w : CmdWord) (s : State) : Host.Outcome State Fault Refusal :=
  match decode w with
  | .ok i => exec i s
  | .error why => execIllegal why s

/-- One step: the next word of the port, or a step of hardware reset, or nothing when the host presents nothing. -/
def step (s : State) : Host.Outcome State Fault Refusal :=
  match nextInput s with
  | none => idleStep s
  | some (.rst, s') => hardwareReset s'
  | some (.word w, s') => stepWord w s'

/-- The state with a table word presented as the very next command word (log entry 9). -/
def State.withFetchWord (s : State) (nbits w : Nat) : State :=
  presentFirst s (BitVec.ofNat 24 (w % 2 ^ nbits))

end Sys2Proof.Machine
end

