-- ==== Sys2Proof/Machine/Assembler.lean ====
section
/-! DEFINITION. The assembler syntax of the spec: command lines, their operand limits, and the pseudo-instructions
(spec/30_encoding.md R113, R114). A line is a list of characters. What R113 leaves open of the text (case of hex digits,
blanks, empty lines) is log entry 13. -/

namespace Sys2Proof.Machine

/-! ### One command from its operands (R113) -/

/-- An operand byte, 0..255; anything else is rejected, not truncated (R113). -/
def byteOperand (n : Nat) : Option Byte := if n < 256 then some (BitVec.ofNat 8 n) else none

/-- The command of a mnemonic and its operands, or none where the assembler rejects them (R113). -/
def assemble (op : Op) (operands : List Nat) : Option Instr :=
  match op, operands with
  | .nop, [] => some .nop
  | .feed, [b] => (byteOperand b).map feedInstr
  | .take, [] => some .take
  | .reset, [] => some .reset
  | .ustart, [] => some .ustart
  | .ubyte, [b] => (byteOperand b).map .ubyte
  | .pstart, [] => some .pstart
  | .pbyte, [b] => (byteOperand b).map .pbyte
  | .pflush, [] => some .pflush
  | .extract, [b, lo, hi] =>
    if lo < hi ∧ hi ≤ 8 then (byteOperand b).map fun d => .extract d (BitVec.ofNat 4 lo) (BitVec.ofNat 4 hi) else none
  | _, _ => none

/-! ### Pseudo-instructions (R114) -/

/-- The pseudo-instructions of R114. -/
inductive Pseudo where
  | feeds (bs : List Byte)
  | recv (bs : List Byte)
  | unpack (bs : List Byte)
  | pack (bs : List Byte)
  deriving DecidableEq, Repr

/-- The expansion of a pseudo-instruction, in order (R114). R114 gives the case of no operands for UNPACK and PACK only; that
FEEDS of none is no command and RECV of none is TAKE alone is a DESIGN CHOICE (log entry 17). -/
def Pseudo.expand : Pseudo → List Instr
  | .feeds bs => bs.map feedInstr
  | .recv bs => bs.map feedInstr ++ [.take]
  | .unpack bs => .ustart :: bs.map .ubyte
  | .pack bs => .pstart :: (bs.map .pbyte ++ [.pflush])

/-- The pseudo-instruction or the command of a line's mnemonic: what R113 and R114 allow at the start of a line. -/
inductive Mnemonic where
  | command (op : Op)
  | feeds | recv | unpack | pack
  deriving DecidableEq, Repr

/-- A list of operand bytes. -/
def byteOperands (ns : List Nat) : Option (List Byte) := ns.mapM byteOperand

/-- The commands of a mnemonic and its operands. FEEDS and RECV with no operands are accepted, which R114 leaves open: DESIGN
CHOICE, log entry 17. -/
def expandLine (m : Mnemonic) (operands : List Nat) : Option (List Instr) :=
  match m with
  | .command op => (assemble op operands).map fun i => [i]
  | .feeds => (byteOperands operands).map fun bs => (Pseudo.feeds bs).expand
  | .recv => (byteOperands operands).map fun bs => (Pseudo.recv bs).expand
  | .unpack => (byteOperands operands).map fun bs => (Pseudo.unpack bs).expand
  | .pack => (byteOperands operands).map fun bs => (Pseudo.pack bs).expand

/-! ### Lines of text (R113) -/

/-- The mnemonics, in capitals (R113, R114). -/
def mnemonicOf (name : List Char) : Option Mnemonic :=
  if name = ['N', 'O', 'P'] then some (.command .nop)
  else if name = ['F', 'E', 'E', 'D'] then some (.command .feed)
  else if name = ['T', 'A', 'K', 'E'] then some (.command .take)
  else if name = ['R', 'E', 'S', 'E', 'T'] then some (.command .reset)
  else if name = ['U', 'S', 'T', 'A', 'R', 'T'] then some (.command .ustart)
  else if name = ['U', 'B', 'Y', 'T', 'E'] then some (.command .ubyte)
  else if name = ['P', 'S', 'T', 'A', 'R', 'T'] then some (.command .pstart)
  else if name = ['P', 'B', 'Y', 'T', 'E'] then some (.command .pbyte)
  else if name = ['P', 'F', 'L', 'U', 'S', 'H'] then some (.command .pflush)
  else if name = ['E', 'X', 'T', 'R', 'A', 'C', 'T'] then some (.command .extract)
  else if name = ['F', 'E', 'E', 'D', 'S'] then some .feeds
  else if name = ['R', 'E', 'C', 'V'] then some .recv
  else if name = ['U', 'N', 'P', 'A', 'C', 'K'] then some .unpack
  else if name = ['P', 'A', 'C', 'K'] then some .pack
  else none

/-- The value of a digit character, 0..15. -/
def digitValue (c : Char) : Option Nat :=
  if '0'.toNat ≤ c.toNat ∧ c.toNat ≤ '9'.toNat then some (c.toNat - '0'.toNat)
  else if 'A'.toNat ≤ c.toNat ∧ c.toNat ≤ 'F'.toNat then some (c.toNat - 'A'.toNat + 10)
  else if 'a'.toNat ≤ c.toNat ∧ c.toNat ≤ 'f'.toNat then some (c.toNat - 'a'.toNat + 10)
  else none

/-- The digits of a numeral in a base, read onto a value. -/
def readDigits (base : Nat) (value : Nat) (digits : List Char) : Option Nat :=
  match digits with
  | [] => some value
  | c :: rest =>
    match digitValue c with
    | some d => if d < base then readDigits base (base * value + d) rest else none
    | none => none

/-- A number, `0xHH` or decimal (R113). -/
def readNumber (text : List Char) : Option Nat :=
  match text with
  | '0' :: 'x' :: c :: rest => readDigits 16 0 (c :: rest)
  | c :: rest => readDigits 10 0 (c :: rest)
  | [] => none

/-- A blank between a mnemonic and its operands. -/
def isBlank (c : Char) : Bool := c = ' ' || c = '\t'

/-- The line without its comment: `;` starts one (R113). -/
def dropComment (line : List Char) : List Char := line.takeWhile fun c => c ≠ ';'

/-- A piece of text without the blanks at its ends. -/
def trimBlanks (text : List Char) : List Char :=
  ((text.dropWhile isBlank).reverse.dropWhile isBlank).reverse

/-- The pieces of a text between commas. -/
def splitCommas (text : List Char) : List (List Char) :=
  match text with
  | [] => [[]]
  | c :: rest =>
    if c = ',' then [] :: splitCommas rest
    else
      match splitCommas rest with
      | [] => [[c]]
      | piece :: pieces => (c :: piece) :: pieces

/-- The operands of a line: none, or numbers separated by commas (R113). -/
def readOperands (text : List Char) : Option (List Nat) :=
  if trimBlanks text = [] then some [] else (splitCommas text).mapM fun piece => readNumber (trimBlanks piece)

/-- One line of a command sequence: its commands, the empty list for a line with no command, or none where the assembler
rejects the line (R113). -/
def assembleLine (line : List Char) : Option (List Instr) :=
  let text := trimBlanks (dropComment line)
  if text = [] then some []
  else
    match mnemonicOf (text.takeWhile fun c => !isBlank c), readOperands (text.dropWhile fun c => !isBlank c) with
    | some m, some operands => expandLine m operands
    | _, _ => none

end Sys2Proof.Machine
end

