-- ==== Sys2Proof/Machine/Flags.lean ====
section
/-! DEFINITION. The outputs the host reads: STATUS, LEN and the frame read port (spec/10_state.md R41 to R43, R45). SXC has
no arithmetic condition codes; its only flags are RX, FV and LAST_ERR (R45). -/

namespace Sys2Proof.Machine

/-- The 2-bit code of R270. -/
def ErrCode.code : ErrCode → BitVec 2
  | .none => 0
  | .protocol => 1
  | .overflow => 2
  | .illegalCmd => 3

/-- STATUS (R41): bit 0 RX, bit 1 FV, bits 3:2 LAST_ERR, bits 6:4 U_POS, bits 9:7 P_CNT, bits 15:10 read 0. -/
def State.status (s : State) : BitVec 16 :=
  (BitVec.ofBool s.rx).setWidth 16 ||| ((BitVec.ofBool s.fv).setWidth 16 <<< 1) ||| (s.lastErr.code.setWidth 16 <<< 2)
    ||| (s.uPos.setWidth 16 <<< 4) ||| (s.pCnt.setWidth 16 <<< 7)

/-- The LEN output (R41). -/
def State.lenOut (s : State) : Nat := s.len

/-- The frame read port (R43): `rd_data` for `rd_addr = addr`. Outside `FV = 1 and rd_addr < LEN` the value is unspecified:
it is `draw`, a free value that the port's environment supplies, and a claim holds for every draw (log entry 7). -/
def State.rdData (s : State) (addr : Nat) (draw : Byte) : Byte :=
  if s.fv = true ∧ addr < s.len then memRead s.mem addr else draw

/-- What a model exposes after each step (R263): STATUS, LEN, and the events so far, of which the step's own list is what
the step appended. -/
def State.observe (s : State) : BitVec 16 × Nat × List Event := (s.status, s.lenOut, s.out)

end Sys2Proof.Machine
end

