-- ==== Sys2Proof/Machine/Reference.lean ====
section
/-! DEFINITION. The spec's reference functions, written from their own rules and not from the commands: `unpack` (R160),
`pack` (R190), `extractBits` by its double reversal (R140), FEED as one function (R229), the document's frame assembler
over IDLE and RECEIVING (R37), and the frames of an input sequence (R233). Claims compare the machine with these. -/

namespace Sys2Proof.Machine

/-! ### The codec -/

/-- `unpack(p)` (R160): for each run g, for each position 1..7, the byte at `i = 8*g + pos` where the input has one. -/
def unpack (p : List Byte) : List Byte :=
  (List.range ((p.length + 7) / 8)).flatMap fun g =>
    (List.range' 1 7).filterMap fun pos =>
      (p[8 * g + pos]?).map fun d => d ||| ((p.getD (8 * g) 0 &&& (1#8 <<< (pos - 1))) <<< (8 - pos))

/-- `pack(u)` (R190): for each group g of up to 7 bytes, its high-bits byte, then the low 7 bits of each byte. -/
def pack (u : List Byte) : List Byte :=
  (List.range ((u.length + 6) / 7)).flatMap fun g => packGroup ((u.drop (7 * g)).take 7)

/-- A Packed7BitBuffer: every byte is below 0x80 (R16). -/
def IsPacked (p : List Byte) : Prop := ∀ b ∈ p, b.toNat < 0x80

/-! ### The bit-field extractor -/

/-- A list of binary digits parsed as a numeral, first digit most significant. -/
def parseBinary (digits : List Bool) : Nat := digits.foldl (fun acc d => 2 * acc + d.toNat) 0

/-- `extractBits` by the document's double reversal (R140): the 8 digits LSB first, the half-open part `[lo, hi)` of them,
reversed, parsed as a binary numeral. -/
def extractBits (b : Byte) (lo hi : Nat) : Nat :=
  let s := (List.range 8).map b.getLsbD
  parseBinary ((s.drop lo).take (hi - lo)).reverse

/-! ### FEED as one function -/

/-- FEED(b) as R229 writes it. -/
def feedByte (b : Byte) (s : State) : State :=
  if b = 0xF0 then { s with mem := memWrite s.mem 0 0xF0, len := 1, rx := true, fv := false }
  else if s.rx = false then s
  else if b ≠ 0xF7 ∧ b &&& 0x80 ≠ 0 then { s with out := s.out ++ [.err .protocol], lastErr := .protocol, rx := false, len := 0 }
  else if hasRoom s.config s.len = false then
    { s with out := s.out ++ [.err .overflow], lastErr := .overflow, rx := false, len := 0 }
  else if b = 0xF7 then { s with mem := memWrite s.mem s.len 0xF7, len := s.len + 1, rx := false, fv := true }
  else { s with mem := memWrite s.mem s.len b, len := s.len + 1 }

/-! ### The document's frame assembler -/

/-- The two states of the document's FrameAssembler (R16). -/
inductive DocState where
  | idle | receiving
  deriving DecidableEq, Repr

/-- The document's assembler: `(state, buffer, completed)` (R37). -/
structure DocAssembler where
  state : DocState
  buffer : List Byte
  completed : Option (List Byte)
  deriving DecidableEq, Repr

/-- The document's `feed(byte)`, from its own words as rules R221 to R228 quote them: the next assembler, and whether a
protocol error is reported. -/
def docFeed (b : Byte) (a : DocAssembler) : DocAssembler × Bool :=
  match classify b, a.state with
  | .sox, _ => ({ state := .receiving, buffer := [b], completed := none }, false)
  | .eox, .receiving => ({ state := .idle, buffer := [], completed := some (a.buffer ++ [b]) }, false)
  | .data, .receiving => ({ a with buffer := a.buffer ++ [b] }, false)
  | .status, .receiving => ({ state := .idle, buffer := [], completed := none }, true)
  | .eox, .idle => (a, false)
  | .data, .idle => (a, false)
  | .status, .idle => (a, false)

/-- The document's `takeCompletedFrame()`: the frame, returned and cleared (R230). -/
def docTake (a : DocAssembler) : DocAssembler × Option (List Byte) := ({ a with completed := none }, a.completed)

/-- SXC's state in the document's terms (R37). -/
def State.docAssembler (s : State) : DocAssembler where
  state := if s.rx then .receiving else .idle
  buffer := if s.rx then memBytes s.mem s.len else []
  completed := if s.fv then some (memBytes s.mem s.len) else none

/-! ### Frames of an input sequence -/

/-- A RawFrame (R16): first byte `0xF0`, last byte `0xF7`, all interior bytes below 0x80. -/
def isRawFrame (f : List Byte) : Bool :=
  decide (2 ≤ f.length) && decide (f.head? = some 0xF0) && decide (f.getLast? = some 0xF7)
    && ((f.drop 1).dropLast).all fun b => decide (b.toNat < 0x80)

/-- The segment of R233 that ends where `input` ends, if there is one. -/
def frameEndingHere (input : List Byte) : Option (List Byte) := input.tails.find? isRawFrame

/-- The segments of R233 in the order of their ends: begin with `0xF0`, end at the next `0xF7`, no other byte >= 0x80. -/
def framesOf (input : List Byte) : List (List Byte) :=
  (List.range (input.length + 1)).filterMap fun k => frameEndingHere (input.take k)

end Sys2Proof.Machine
end

