-- ==== Sys2Proof/Safety.lean ====
section
/-! DEFINITION. The terms in which claims about SXC are stated: the invariant of R36 with what the model adds to it, the
state after a reset, the frames ("unchanged") by unit, what no command can observe (R40), and runs of commands. -/

namespace Sys2Proof.Machine

/-! ### The invariant -/

/-- INV_FA of R36, clause by clause, with each byte of MEM read by `memRead`. -/
structure FrameInv (s : State) : Prop where
  /-- `not (RX = 1 and FV = 1)` -/
  exclusive : ¬ (s.rx = true ∧ s.fv = true)
  /-- `RX = 1 -> LEN >= 1 and MEM[0] = 0xF0 and for all 0 < i < LEN: MEM[i] < 0x80` -/
  receiving : s.rx = true →
    1 ≤ s.len ∧ memRead s.mem 0 = 0xF0 ∧ ∀ i, 0 < i → i < s.len → (memRead s.mem i).toNat < 0x80
  /-- `FV = 1 -> LEN >= 2 and MEM[0] = 0xF0 and MEM[LEN-1] = 0xF7 and for all 0 < i < LEN-1: MEM[i] < 0x80` -/
  completed : s.fv = true →
    2 ≤ s.len ∧ memRead s.mem 0 = 0xF0 ∧ memRead s.mem (s.len - 1) = 0xF7 ∧
      ∀ i, 0 < i → i < s.len - 1 → (memRead s.mem i).toNat < 0x80
  /-- `RX = 0 and FV = 0 -> LEN = 0` -/
  empty : s.rx = false → s.fv = false → s.len = 0
  /-- `LEN <= MAX_FRAME_LEN` -/
  capacity : ∀ max, s.config.maxFrameLen = .bytes max → s.len ≤ max

/-- The invariant of the machine: INV_FA (R36); P_CNT holds 0..6 (R39); a finite MAX_FRAME_LEN is at least 2 (R8); MEM
keeps its canonical form and has entries only at indices 0..MAX_FRAME_LEN-1 (R35, R70). -/
structure Inv (s : State) : Prop where
  frame : FrameInv s
  packer : s.pCnt.toNat ≤ 6
  config : s.config.wf = true
  memory : Memory.wf s.mem
  inRange : ∀ max, s.config.maxFrameLen = .bytes max → ∀ c ∈ s.mem, c.1 < max

/-- The registers that R48 gives a value hold it; MEM, U_HB and P_BUF are any draw (R48, R301). -/
structure AtReset (s : State) : Prop where
  rx : s.rx = false
  fv : s.fv = false
  len : s.len = 0
  uPos : s.uPos = 0
  pCnt : s.pCnt = 0
  lastErr : s.lastErr = .none

/-! ### Frames: what is unchanged from `s` to `t` -/

/-- RX, FV and LEN unchanged. -/
def SameFrameRegs (s t : State) : Prop := t.rx = s.rx ∧ t.fv = s.fv ∧ t.len = s.len

/-- Every byte of MEM unchanged. -/
def SameMem (s t : State) : Prop := ∀ a, memRead t.mem a = memRead s.mem a

/-- Every byte of MEM unchanged but the one at `a`. -/
def SameMemBut (a : Nat) (s t : State) : Prop := ∀ b, b ≠ a → memRead t.mem b = memRead s.mem b

/-- U_POS and U_HB unchanged. -/
def SameUnpacker (s t : State) : Prop := t.uPos = s.uPos ∧ t.uHb = s.uHb

/-- P_CNT and every entry of P_BUF unchanged. -/
def SamePacker (s t : State) : Prop := t.pCnt = s.pCnt ∧ t.pBuf = s.pBuf

/-- LAST_ERR unchanged. -/
def SameErr (s t : State) : Prop := t.lastErr = s.lastErr

/-- What the host has still to present, and the build's configuration, unchanged. -/
def SameHost (s t : State) : Prop := t.port = s.port ∧ t.config = s.config

/-- The step's event list is exactly `evs` (R14, R44). -/
def Emits (s t : State) (evs : List Event) : Prop := t.out = s.out ++ evs

/-- Nothing of the frame assembler changed: RX, FV, LEN and every byte of MEM. -/
def SameAssembler (s t : State) : Prop := SameFrameRegs s t ∧ SameMem s t

/-- `LEN < MAX_FRAME_LEN`, which always holds when it is unbounded (R8). -/
def LenBelowMax (s : State) : Prop := ∀ max, s.config.maxFrameLen = .bytes max → s.len < max

/-- `LEN >= MAX_FRAME_LEN`, which never holds when it is unbounded (R227, R229). -/
def LenAtMax (s : State) : Prop := ∃ max, s.config.maxFrameLen = .bytes max ∧ max ≤ s.len

/-! ### What no command can observe (R40) -/

/-- `s` and `t` agree on everything but the values that R40 says no command can observe: `MEM[i]` for `i >= LEN`, U_HB
while U_POS = 0, and `P_BUF[j]` for `j >= P_CNT`. -/
structure ObsEq (s t : State) : Prop where
  config : s.config = t.config
  rx : s.rx = t.rx
  fv : s.fv = t.fv
  len : s.len = t.len
  mem : ∀ i, i < s.len → memRead s.mem i = memRead t.mem i
  uPos : s.uPos = t.uPos
  uHb : s.uPos ≠ 0 → s.uHb = t.uHb
  pCnt : s.pCnt = t.pCnt
  pBuf : ∀ j (h : j < 6), j < s.pCnt.toNat → s.pBuf[j] = t.pBuf[j]
  lastErr : s.lastErr = t.lastErr
  port : s.port = t.port
  out : s.out = t.out

/-! ### Units (R3, R80) -/

/-- The unit a command belongs to; NOP and RESET belong to none of them (R102). -/
inductive FunctionalUnit where
  | assembler | unpacker | packer | extractor
  deriving DecidableEq, Repr

/-- The unit of each command (R80, R102). -/
def unitOf : Instr → Option FunctionalUnit
  | .nop => none
  | .feedSox => some .assembler
  | .feedEox => some .assembler
  | .feedData _ => some .assembler
  | .feedStatus _ => some .assembler
  | .take => some .assembler
  | .reset => none
  | .ustart => some .unpacker
  | .ubyte _ => some .unpacker
  | .pstart => some .packer
  | .pbyte _ => some .packer
  | .pflush => some .packer
  | .extract _ _ _ => some .extractor

/-! ### Events -/

/-- The bytes on UOUT, in order. -/
def uoutBytes (evs : List Event) : List Byte :=
  evs.filterMap fun e => match e with
    | .uout b => some b
    | .frame _ => none
    | .err _ => none
    | .pout _ => none
    | .xout _ => none

/-- The bytes on POUT, in order. -/
def poutBytes (evs : List Event) : List Byte :=
  evs.filterMap fun e => match e with
    | .pout b => some b
    | .frame _ => none
    | .err _ => none
    | .uout _ => none
    | .xout _ => none

/-- The error codes on ERR, in order. -/
def errCodes (evs : List Event) : List ErrCode :=
  evs.filterMap fun e => match e with
    | .err c => some c
    | .frame _ => none
    | .uout _ => none
    | .pout _ => none
    | .xout _ => none

/-- The frames returned on FRAME, in order, the `None` answers left out. -/
def frameEvents (evs : List Event) : List (List Byte) :=
  evs.filterMap fun e => match e with
    | .frame f => f
    | .err _ => none
    | .uout _ => none
    | .pout _ => none
    | .xout _ => none

/-! ### Runs -/

/-- The commands in order, stopping at the first fault or refusal. -/
def execAll (is : List Instr) (s : State) : Host.Outcome State Fault Refusal :=
  match is with
  | [] => .next s
  | i :: rest =>
    match exec i s with
    | .next t => execAll rest t
    | .fault f => .fault f
    | .refused r => .refused r

/-- `n` steps, stopping at the first fault or refusal. -/
def runSteps (n : Nat) (s : State) : Host.Outcome State Fault Refusal :=
  match n with
  | 0 => .next s
  | k + 1 =>
    match step s with
    | .next t => runSteps k t
    | .fault f => .fault f
    | .refused r => .refused r

end Sys2Proof.Machine
end

