-- ==== Sys2Proof/Certificates/Slice0/Obligations.lean ====
section
/-! DEFINITION. The statements about SXC that are put to the provers. Each docstring names the rule of spec/ it formalises. -/

open Sys2Proof Sys2Proof.Machine

/-! ### Encoding -/

/-- Decoding the word of a command gives the command back, for every command and every operand value (R101, R112, R113). -/
def Obligations.DecodeEncodeRoundTrip : Prop :=
  ∀ i : Instr, i.wellFormed = true → decode (encode i) = .ok i

/-- A word that decodes to a command is the word of that command, and the command is well formed (R112, R113). -/
def Obligations.DecodedWordIsEncoding : Prop :=
  ∀ (w : CmdWord) (i : Instr), decode w = .ok i → encode i = w ∧ i.wellFormed = true

/-- R107: a row of the command map applies to a word exactly when the decoder gives that row's command; and ILLEGAL applies
exactly when no row does. At most one row applies, since the decoder gives one command. -/
def Obligations.DecoderFollowsCommandMap : Prop :=
  ∀ w : CmdWord,
    (∀ r : Row, (w &&& r.mask = r.pattern ∧ r.extra w = true) ↔ ∃ i, decode w = .ok i ∧ i.row = r) ∧
    ((∃ why, decode w = .error why) ↔ ∀ r : Row, r.matchesWord w = false)

/-- R108: the five conditions under which a word is ILLEGAL, and no other; such a word raises ILLEGAL_CMD and changes no
other state. -/
def Obligations.IllegalWordsAreTheFiveCases : Prop :=
  ∀ w : CmdWord,
    ((∃ why, decode w = .error why) ↔
      0xA ≤ (opField w).toNat ∨ rsvField w ≠ 0 ∨
      (opField w ≠ 0x9 ∧ (toField w ≠ 0 ∨ fromField w ≠ 0)) ∨
      (opField w ∈ [0x0#4, 0x2#4, 0x3#4, 0x4#4, 0x6#4, 0x8#4] ∧ dataField w ≠ 0) ∨
      (opField w = 0x9 ∧ ¬ ((fromField w).toNat < (toField w).toNat ∧ (toField w).toNat ≤ 8))) ∧
    ∀ (s : State) (rest : List PortInput), s.port = .word w :: rest → (∃ why, decode w = .error why) →
      step s = .next { s with port := rest, lastErr := .illegalCmd, out := s.out ++ [.err .illegalCmd] }

/-- R105: the conditions of the four byte classes, and how many byte values each has. -/
def Obligations.ByteClassesPartitionTheBytes : Prop :=
  (∀ b : Byte,
    (classify b = .sox ↔ b = 0xF0) ∧ (classify b = .eox ↔ b = 0xF7) ∧
    (classify b = .status ↔ b &&& 0x80 ≠ 0 ∧ b ≠ 0xF0 ∧ b ≠ 0xF7) ∧
    (classify b = .data ↔ b.toNat < 0x80)) ∧
  ((List.range 256).map (fun n => classify (BitVec.ofNat 8 n))).count .sox = 1 ∧
  ((List.range 256).map (fun n => classify (BitVec.ofNat 8 n))).count .eox = 1 ∧
  ((List.range 256).map (fun n => classify (BitVec.ofNat 8 n))).count .status = 126 ∧
  ((List.range 256).map (fun n => classify (BitVec.ofNat 8 n))).count .data = 128

/-- R106: the real-time bytes and every other status byte are of class STATUS, so their FEED word is the STATUS row's. -/
def Obligations.RealTimeBytesAreStatusBytes : Prop :=
  ∀ b : Byte,
    (0xF8 ≤ b.toNat ∨ (0x80 ≤ b.toNat ∧ b.toNat ≤ 0xEF) ∨ (0xF1 ≤ b.toNat ∧ b.toNat ≤ 0xF6)) →
      classify b = .status ∧ decode (0x100000#24 ||| b.zeroExtend 24) = .ok (.feedStatus b)

/-- R115: the encoding examples of the spec. -/
def Obligations.SpecEncodingExamples : Prop :=
  decode 0x1000F0 = .ok .feedSox ∧ decode 0x100010 = .ok (.feedData 0x10) ∧ decode 0x1000F7 = .ok .feedEox ∧
  decode 0x100081 = .ok (.feedStatus 0x81) ∧ decode 0x200000 = .ok .take ∧ decode 0x50007F = .ok (.ubyte 0x7F) ∧
  decode 0x700085 = .ok (.pbyte 0x85) ∧ decode 0x96406C = .ok (.extract 0x6C 4 6) ∧
  decode 0x9800FF = .ok (.extract 0xFF 0 8) ∧ decode 0x94606C = .error .extractBounds ∧
  decode 0xA00000 = .error .reservedOp

/-- R113: the word of each assembler form, for every operand in its limits; an operand outside them is rejected. -/
def Obligations.AssemblerFormsAndLimits : Prop :=
  (assemble .nop []).map encode = some 0x000000 ∧ (assemble .take []).map encode = some 0x200000 ∧
  (assemble .reset []).map encode = some 0x300000 ∧ (assemble .ustart []).map encode = some 0x400000 ∧
  (assemble .pstart []).map encode = some 0x600000 ∧ (assemble .pflush []).map encode = some 0x800000 ∧
  (∀ b, b < 256 →
    (assemble .feed [b]).map encode = some (BitVec.ofNat 24 (0x100000 ||| b)) ∧
    (assemble .ubyte [b]).map encode = some (BitVec.ofNat 24 (0x500000 ||| b)) ∧
    (assemble .pbyte [b]).map encode = some (BitVec.ofNat 24 (0x700000 ||| b)) ∧
    ∀ lo hi, lo < hi → hi ≤ 8 →
      (assemble .extract [b, lo, hi]).map encode =
        some (BitVec.ofNat 24 (0x900000 ||| (hi <<< 16) ||| (lo <<< 12) ||| b))) ∧
  (∀ b, 256 ≤ b →
    assemble .feed [b] = none ∧ assemble .ubyte [b] = none ∧ assemble .pbyte [b] = none ∧
    ∀ lo hi, assemble .extract [b, lo, hi] = none) ∧
  (∀ b lo hi, ¬ (lo < hi ∧ hi ≤ 8) → assemble .extract [b, lo, hi] = none)

/-! ### The step -/

/-- When the next word on the port decodes to a command, the step is that command's meaning, with the word consumed; so it
is for a word presented by `withFetchWord` (R262, R31). -/
def Obligations.StepRunsTheDecodedCommand : Prop :=
  ∀ (s : State) (w : CmdWord) (i : Instr), decode w = .ok i →
    (∀ rest, s.port = .word w :: rest → step s = exec i { s with port := rest }) ∧
    step (s.withFetchWord 24 w.toNat) = exec i s

/-- R261: an ILLEGAL word raises ILLEGAL_CMD and writes LAST_ERR only. -/
def Obligations.IllegalWordRaisesIllegalCmd : Prop :=
  ∀ (s : State) (w : CmdWord) (why : Illegal) (rest : List PortInput),
    s.port = .word w :: rest → decode w = .error why →
      ∃ t, step s = .next t ∧ Emits s t [.err .illegalCmd] ∧ t.lastErr = .illegalCmd ∧
        t.status.extractLsb' 2 2 = 3 ∧ SameAssembler s t ∧ SameUnpacker s t ∧ SamePacker s t ∧
        t.port = rest ∧ t.config = s.config

/-- MODEL'S CHOICE (log entry 8): the hardware reset input takes a step in place of a command word, and that step does exactly
what RESET does, so MEM, U_HB and P_BUF are left as they are. R301 says that `rst` puts SXC in the state of R48 exactly as
RESET does, but speaks of MEM, U_HB and P_BUF as free draws. -/
def Obligations.HardwareResetActsAsReset : Prop :=
  ∀ (s : State) (rest : List PortInput), s.port = .rst :: rest →
    step s = exec .reset { s with port := rest } ∧ ∃ t, step s = .next t ∧ AtReset t ∧ t.port = rest

/-- MODEL'S CHOICE (log entry 2): a step in which the host presents nothing changes nothing. The spec says only that SXC
waits for nothing (R316) and that every state survives between commands (R285). -/
def Obligations.StepWithNothingPresentedIsIdle : Prop :=
  ∀ s : State, s.port = [] → step s = .next s

/-- Every step finishes in a next state, whatever is presented: no fault, refusal, stuck or hang outcome (R262); it
consumes exactly the input it was presented (R31), leaves the build's MAX_FRAME_LEN as it is (R47), and only adds
events (R44). -/
def Obligations.EveryStepCompletes : Prop :=
  ∀ s : State, ∃ t, step s = .next t ∧ t.port = s.port.tail ∧ t.config = s.config ∧ s.out <+: t.out

/-- Commands encoded on the port run in order, one per step: the run of the port's words is the run of the commands
(R31, R79, R262). -/
def Obligations.PortRunsCommandsInOrder : Prop :=
  ∀ (is : List Instr) (s : State) (rest : List PortInput), (∀ i ∈ is, i.wellFormed = true) →
    runSteps is.length { s with port := is.map (fun i => .word (encode i)) ++ rest } =
      execAll is { s with port := rest }

/-- R274: at most one error per step. An ILLEGAL word raises only ILLEGAL_CMD; of the commands only FEED raises, of a status
byte PROTOCOL only (at every LEN), of a data byte or EOX OVERFLOW only. -/
def Obligations.AtMostOneErrorPerStep : Prop :=
  (∀ s t : State, step s = .next t → (errCodes (t.out.drop s.out.length)).length ≤ 1) ∧
  (∀ (s t : State) (w : CmdWord) (rest : List PortInput), s.port = .word w :: rest → step s = .next t →
    match decode w with
    | .error _ => errCodes (t.out.drop s.out.length) = [.illegalCmd]
    | .ok i =>
      errCodes (t.out.drop s.out.length) = [] ∨
      ((∃ b, i = .feedStatus b) ∧ errCodes (t.out.drop s.out.length) = [.protocol]) ∨
      ((i = .feedEox ∨ ∃ b, i = .feedData b) ∧ errCodes (t.out.drop s.out.length) = [.overflow])) ∧
  ∀ (s : State) (b : Byte), s.rx = true → LenAtMax s →
    ∃ t, exec (.feedStatus b) s = .next t ∧ t.out = s.out ++ [.err .protocol]

/-- R42: LAST_ERR holds the code of the most recent error event: a step that raises writes its code, and a step that does not
raise leaves LAST_ERR as it is, unless it is a RESET or a hardware reset, which sets it to NONE. It stops nothing: the block
takes the next step whatever the code. The codes are 0 to 3. -/
def Obligations.LastErrIsTheLatestErrorCode : Prop :=
  (ErrCode.none.code = 0 ∧ ErrCode.protocol.code = 1 ∧ ErrCode.overflow.code = 2 ∧ ErrCode.illegalCmd.code = 3) ∧
  ∀ s t : State, step s = .next t →
    (∃ u, step t = .next u) ∧
    ((∃ c, c ≠ .none ∧ errCodes (t.out.drop s.out.length) = [c] ∧ t.lastErr = c) ∨
     (errCodes (t.out.drop s.out.length) = [] ∧
       if s.port.head? = some .rst ∨ s.port.head? = some (.word 0x300000) then t.lastErr = .none
       else t.lastErr = s.lastErr))

/-! ### Invariant and reset -/

/-- R36: INV_FA holds after reset, whatever MEM, U_HB and P_BUF hold, and every step of a build with a legal MAX_FRAME_LEN
keeps it. -/
def Obligations.FrameInvariantHoldsAfterResetAndIsKept : Prop :=
  (∀ s : State, AtReset s → FrameInv s) ∧
  ∀ s t : State, s.config.wf = true → FrameInv s → step s = .next t → FrameInv t

/-- Every step keeps the whole invariant: INV_FA (R36), P_CNT at most 6 (R39), MAX_FRAME_LEN legal (R8), MEM's entries within
range (R35), and MEM in its canonical form, which is the MODEL'S own representation (log entry 4). -/
def Obligations.EveryStepKeepsTheInvariant : Prop :=
  ∀ s t : State, Inv s → step s = .next t → Inv t

/-- The invariant holds at reset, for every legal MAX_FRAME_LEN (R36, R48). That reset memory lists nothing, which makes it
canonical, is the MODEL'S CHOICE (log entry 4). -/
def Obligations.ResetMeetsTheInvariant : Prop :=
  (∀ c : Config, c.wf = true → Inv (State.resetOf c)) ∧ Inv State.reset

/-- R48: the value of every register after power-on and after RESET; nothing is said of MEM, U_HB and P_BUF. -/
def Obligations.ResetValues : Prop :=
  (∀ c : Config, AtReset (State.resetOf c) ∧ (State.resetOf c).status = 0x0000) ∧
  AtReset State.reset ∧ State.reset.status = 0x0000 ∧
  ∀ s : State, ∃ t, exec .reset s = .next t ∧ AtReset t ∧ t.status = 0x0000

/-- R300: RESET writes every register to its reset value, emits nothing, and does not write MEM, U_HB and P_BUF; a second RESET
changes nothing. -/
def Obligations.ResetCommand : Prop :=
  encode .reset = 0x300000 ∧
  ∀ s : State, ∃ t, exec .reset s = .next t ∧ AtReset t ∧ SameMem s t ∧ t.uHb = s.uHb ∧ t.pBuf = s.pBuf ∧
    Emits s t [] ∧ SameHost s t ∧ exec .reset t = .next t

/-- R40: what MEM holds from LEN on, U_HB while U_POS = 0, and P_BUF from P_CNT on cannot be observed: two states that differ
only there give the same outputs, now and after any step, and differ only there after it. -/
def Obligations.UnobservableValuesStayUnobservable : Prop :=
  ∀ s t : State, ObsEq s t →
    s.observe = t.observe ∧ (∀ addr draw, s.rdData addr draw = t.rdData addr draw) ∧
    ∃ s' t', step s = .next s' ∧ step t = .next t' ∧ ObsEq s' t'

/-! ### Control -/

/-- R260: NOP is the word 0x000000; it changes nothing and emits nothing; 0x000001 is no NOP but ILLEGAL. -/
def Obligations.NopChangesNothing : Prop :=
  decode 0x000000 = .ok .nop ∧ (∃ why, decode 0x000001 = .error why) ∧ ∀ s : State, exec .nop s = .next s

/-! ### Frame assembler -/

/-- R221: FEED of `0xF0`, in either state and at every LEN, starts a frame of that byte. -/
def Obligations.FeedSoxStartsAFrame : Prop :=
  encode .feedSox = 0x1000F0 ∧
  ∀ s : State, ∃ t, exec .feedSox s = .next t ∧
    memRead t.mem 0 = 0xF0 ∧ t.len = 1 ∧ t.rx = true ∧ t.fv = false ∧
    SameMemBut 0 s t ∧ SameErr s t ∧ SameUnpacker s t ∧ SamePacker s t ∧ Emits s t [] ∧ SameHost s t

/-- R222: FEED of `0xF7` while RX = 1 and LEN < MAX stores it at MEM[LEN] and completes the frame. -/
def Obligations.FeedEoxCompletesTheFrame : Prop :=
  encode .feedEox = 0x1000F7 ∧
  ∀ s : State, s.rx = true → LenBelowMax s → ∃ t, exec .feedEox s = .next t ∧
    memRead t.mem s.len = 0xF7 ∧ t.len = s.len + 1 ∧ t.rx = false ∧ t.fv = true ∧
    SameMemBut s.len s t ∧ SameErr s t ∧ SameUnpacker s t ∧ SamePacker s t ∧ Emits s t [] ∧ SameHost s t

/-- R223: FEED of a data byte while RX = 1 and LEN < MAX appends it at MEM[LEN]. -/
def Obligations.FeedDataAppends : Prop :=
  (∀ b : Byte, encode (.feedData b) = 0x100000#24 ||| b.setWidth 24) ∧
  ∀ (s : State) (b : Byte), s.rx = true → LenBelowMax s → ∃ t, exec (.feedData b) s = .next t ∧
    memRead t.mem s.len = b ∧ t.len = s.len + 1 ∧ t.rx = s.rx ∧ t.fv = s.fv ∧
    SameMemBut s.len s t ∧ SameErr s t ∧ SameUnpacker s t ∧ SamePacker s t ∧ Emits s t [] ∧ SameHost s t

/-- R224: FEED of a status byte while RX = 1, at every LEN, is a protocol error: ERR(1), LAST_ERR = 1, RX and LEN to 0, FV
stays as it is (0 whenever RX = 1). -/
def Obligations.FeedStatusAbortsTheFrame : Prop :=
  (∀ b : Byte, encode (.feedStatus b) = 0x100000#24 ||| b.setWidth 24) ∧
  ∀ (s : State) (b : Byte), s.rx = true → ∃ t, exec (.feedStatus b) s = .next t ∧
    Emits s t [.err .protocol] ∧ t.lastErr = .protocol ∧ t.rx = false ∧ t.len = 0 ∧ t.fv = s.fv ∧
    (FrameInv s → t.fv = false) ∧ SameMem s t ∧ SameUnpacker s t ∧ SamePacker s t ∧ SameHost s t

/-- R225, R226, R228: data, EOX and status bytes fed while RX = 0 change nothing and emit nothing. -/
def Obligations.FeedInIdleIsIgnored : Prop :=
  ∀ (s : State) (b : Byte), s.rx = false →
    exec (.feedData b) s = .next s ∧ exec .feedEox s = .next s ∧ exec (.feedStatus b) s = .next s

/-- R227: a data byte or EOX fed while RX = 1 and LEN = MAX (finite) is an overflow: ERR(2), LAST_ERR = 2, RX and LEN to 0, FV
as it is (0 whenever RX = 1), the byte discarded. SOX there is no overflow, and a status byte there is PROTOCOL. With MAX
unbounded the case does not arise. -/
def Obligations.FeedAtCapacityOverflows : Prop :=
  (∀ (s : State) (i : Instr), s.rx = true → LenAtMax s → (i = .feedEox ∨ ∃ b, i = .feedData b) →
    ∃ t, exec i s = .next t ∧
      Emits s t [.err .overflow] ∧ t.lastErr = .overflow ∧ t.rx = false ∧ t.len = 0 ∧ t.fv = s.fv ∧
      (FrameInv s → t.fv = false) ∧ SameMem s t ∧ SameUnpacker s t ∧ SamePacker s t ∧ SameHost s t) ∧
  (∀ s : State, s.rx = true → LenAtMax s →
    (∃ t, exec .feedSox s = .next t ∧ Emits s t [] ∧ t.rx = true ∧ t.len = 1 ∧ t.lastErr = s.lastErr) ∧
    ∀ b, ∃ t, exec (.feedStatus b) s = .next t ∧ Emits s t [.err .protocol] ∧ t.lastErr = .protocol) ∧
  ∀ s : State, s.config.maxFrameLen = .unbounded → ¬ LenAtMax s

/-- R227's corner cases: a frame of at most MAX bytes, EOX included, completes and holds its bytes; a longer one raises OVERFLOW
once and leaves no frame. -/
def Obligations.FramesUpToMaxComplete : Prop :=
  ∀ (s : State) (max : Nat) (ds : List Byte), s.config.maxFrameLen = .bytes max → 2 ≤ max →
    ∃ t, execAll (.feedSox :: (ds.map .feedData ++ [.feedEox])) s = .next t ∧ t.rx = false ∧
      if ds.length + 2 ≤ max then
        t.fv = true ∧ memBytes t.mem t.len = 0xF0 :: (ds ++ [0xF7]) ∧ t.out = s.out
      else t.fv = false ∧ t.len = 0 ∧ t.lastErr = .overflow ∧ t.out = s.out ++ [.err .overflow]

/-- R229: the byte classes' meanings together are the one function of R229, and it keeps INV_FA. -/
def Obligations.FeedIsOneFunction : Prop :=
  ∀ (b : Byte) (s : State), exec (feedInstr b) s = .next (feedByte b s) ∧ (Inv s → FrameInv (feedByte b s))

/-- R230: TAKE with FV = 1 emits the LEN bytes of MEM as one FRAME event and clears FV and LEN; with FV = 0 it emits None and
changes nothing else. RX is never written. -/
def Obligations.TakeReturnsTheCompletedFrame : Prop :=
  encode .take = 0x200000 ∧
  ∀ s : State, ∃ t, exec .take s = .next t ∧
    t.rx = s.rx ∧ SameMem s t ∧ SameErr s t ∧ SameUnpacker s t ∧ SamePacker s t ∧ SameHost s t ∧
    if s.fv = true then
      t.fv = false ∧ t.len = 0 ∧
      ∃ f : List Byte, Emits s t [.frame (some f)] ∧ f.length = s.len ∧ ∀ i, i < s.len → f[i]? = some (memRead s.mem i)
    else t.fv = s.fv ∧ t.len = s.len ∧ Emits s t [.frame none]

/-- A frame is returned once: a TAKE right after a TAKE emits None and changes nothing else (R76, R230). -/
def Obligations.SecondTakeReturnsNone : Prop :=
  ∀ s : State, ∃ t, exec .take s = .next t ∧ exec .take t = .next { t with out := t.out ++ [.frame none] }

/-- A completed frame that is not taken before the next `0xF0` is lost, with no error: the TAKE after it emits None (R306). -/
def Obligations.UntakenFrameIsLostAtTheNextStart : Prop :=
  ∀ s : State, s.fv = true → ∃ t, execAll [.feedSox, .take] s = .next t ∧ Emits s t [.frame none] ∧ t.lastErr = s.lastErr

/-- R33: FV is set only by FEED of EOX while RX = 1, and cleared only by FEED of SOX, TAKE and RESET; it is STATUS bit 1. -/
def Obligations.CompletedFrameFlagWriters : Prop :=
  (∀ (i : Instr) (s t : State), exec i s = .next t →
    (s.fv = false → t.fv = true → i = .feedEox ∧ s.rx = true) ∧
    (s.fv = true → t.fv = false → i = .feedSox ∨ i = .take ∨ i = .reset)) ∧
  (∀ (s t : State) (why : Illegal), execIllegal why s = .next t → t.fv = s.fv) ∧
  (∀ s t : State, exec .feedSox s = .next t → t.fv = false) ∧
  (∀ s t : State, exec .take s = .next t → t.fv = false) ∧
  (∀ s t : State, exec .reset s = .next t → t.fv = false) ∧
  ∀ s : State, s.status.getLsbD 1 = s.fv

/-- MEM is written by FEED only, at index 0 or LEN (R35, R70); LEN is written by the frame assembler's commands and RESET only:
by FEED of SOX, by any other FEED while RX = 1, by TAKE while FV = 1, and by RESET (R34, R80). An ILLEGAL word writes
neither (R261). -/
def Obligations.OnlyFeedWritesTheFrameMemory : Prop :=
  (∀ (i : Instr) (s t : State) (a : Nat), exec i s = .next t → memRead t.mem a ≠ memRead s.mem a →
    (i = .feedSox ∧ a = 0) ∨ (s.rx = true ∧ a = s.len ∧ (i = .feedEox ∨ ∃ b, i = .feedData b))) ∧
  (∀ (i : Instr) (s t : State), exec i s = .next t → t.len ≠ s.len →
    i = .feedSox ∨ (s.rx = true ∧ (i = .feedEox ∨ (∃ b, i = .feedData b) ∨ ∃ b, i = .feedStatus b)) ∨
      (s.fv = true ∧ i = .take) ∨ i = .reset) ∧
  ∀ (why : Illegal) (s t : State), execIllegal why s = .next t → SameMem s t ∧ t.len = s.len

/-- After an error or a completed frame no byte but `0xF0` does anything: no replay and no search (R234). -/
def Obligations.IdleWaitsForTheNextStart : Prop :=
  ∀ (s : State) (bs : List Byte), s.rx = false → (∀ b ∈ bs, b ≠ 0xF0) → execAll (bs.map feedInstr) s = .next s

/-- R232: every frame returned is a RawFrame, and a frame in progress cannot be read: the read port gives no byte of it. -/
def Obligations.ReturnedFramesAreRawFrames : Prop :=
  (∀ s t : State, Inv s → step s = .next t → ∀ f, .frame (some f) ∈ t.out.drop s.out.length →
    2 ≤ f.length ∧ f.head? = some 0xF0 ∧ f.getLast? = some 0xF7 ∧
      ∀ i, 0 < i → i < f.length - 1 → ∃ b, f[i]? = some b ∧ b.toNat < 0x80) ∧
  ∀ s : State, Inv s → s.rx = true → ∀ addr draw, s.rdData addr draw = draw

/-- R233: with MAX unbounded and a TAKE after every FEED, the frames returned are exactly the segments of the input that begin
with `0xF0`, end at the next `0xF7` and hold no other byte >= 0x80, in order. -/
def Obligations.FramesReturnedAreTheFramesOfTheInput : Prop :=
  ∀ (s : State) (bs : List Byte), s.rx = false → s.fv = false → s.config.maxFrameLen = .unbounded →
    ∃ t, execAll (bs.flatMap fun b => [feedInstr b, .take]) s = .next t ∧
      s.out <+: t.out ∧ frameEvents (t.out.drop s.out.length) = framesOf bs

/-- SXC refines the document's frame assembler: with MAX unbounded, FEED and TAKE do to SXC's state, read in the document's
terms, what the document's `feed` and `takeCompletedFrame` do, with the same reports and frames (R37). -/
def Obligations.AssemblerRefinesTheDocument : Prop :=
  ∀ s : State, Inv s → s.config.maxFrameLen = .unbounded →
    (∀ b : Byte, ∃ t, exec (feedInstr b) s = .next t ∧
      t.docAssembler = (docFeed b s.docAssembler).1 ∧
      Emits s t (if (docFeed b s.docAssembler).2 then [.err .protocol] else [])) ∧
    ∃ t, exec .take s = .next t ∧ t.docAssembler = (docTake s.docAssembler).1 ∧
      Emits s t [.frame (docTake s.docAssembler).2]

/-! ### Status and the read port -/

/-- R41: each field of STATUS is its register, LAST_ERR by its code, bits 15:10 read 0, and it reads 0 at reset. -/
def Obligations.StatusFieldsShowTheRegisters : Prop :=
  (∀ s : State,
    s.status.getLsbD 0 = s.rx ∧ s.status.getLsbD 1 = s.fv ∧
    (s.status.extractLsb' 2 2).toNat = (match s.lastErr with
      | .none => 0
      | .protocol => 1
      | .overflow => 2
      | .illegalCmd => 3) ∧
    s.status.extractLsb' 4 3 = s.uPos ∧ s.status.extractLsb' 7 3 = s.pCnt ∧ s.status.extractLsb' 10 6 = 0 ∧
    s.lenOut = s.len) ∧
  ∀ s : State, AtReset s → s.status = 0 ∧ s.lenOut = 0

/-- R43: the read port gives `MEM[rd_addr]` while FV = 1 and rd_addr < LEN, and otherwise any value: whatever the draw is. -/
def Obligations.ReadPortReadsTheCompletedFrame : Prop :=
  ∀ (s : State) (addr : Nat),
    (s.fv = true → addr < s.len → ∀ draw, s.rdData addr draw = memRead s.mem addr) ∧
    (¬ (s.fv = true ∧ addr < s.len) → ∀ v, ∃ draw, s.rdData addr draw = v)

/-! ### Unpacker -/

/-- R161: USTART sets U_POS to 0, writes nothing else and emits nothing. -/
def Obligations.UstartBeginsARun : Prop :=
  encode .ustart = 0x400000 ∧
  ∀ s : State, ∃ t, exec .ustart s = .next t ∧ t.uPos = 0 ∧ t.uHb = s.uHb ∧
    SameAssembler s t ∧ SamePacker s t ∧ SameErr s t ∧ Emits s t [] ∧ SameHost s t ∧ (s.uPos = 0 → t = s)

/-- R162: UBYTE at position 0 loads the high-bits byte; at positions 1..7 it emits the byte with bit `U_POS-1` of U_HB ORed into
bit 7; U_POS advances modulo 8. -/
def Obligations.UbyteLoadsOrEmits : Prop :=
  (∀ b : Byte, encode (.ubyte b) = 0x500000#24 ||| b.setWidth 24) ∧
  ∀ (s : State) (b : Byte), ∃ t, exec (.ubyte b) s = .next t ∧
    t.uPos.toNat = (s.uPos.toNat + 1) % 8 ∧
    SameAssembler s t ∧ SamePacker s t ∧ SameErr s t ∧ SameHost s t ∧
    if s.uPos = 0 then t.uHb = b ∧ Emits s t []
    else t.uHb = s.uHb ∧ ∃ e : Byte, Emits s t [.uout e] ∧
      (∀ k, k < 7 → e.getLsbD k = b.getLsbD k) ∧ e.getLsbD 7 = (b.getLsbD 7 || s.uHb.getLsbD (s.uPos.toNat - 1))

/-- R163: from any state, USTART and then the UBYTEs of `p`, with commands of other units between them and no RESET, emit exactly
`unpack(p)` on UOUT, in order, and leave U_POS = n mod 8. -/
def Obligations.UnpackStreamIsUnpack : Prop :=
  ∀ (s : State) (p : List Byte) (is : List Instr),
    is.filter (fun i => unitOf i = some .unpacker) = p.map .ubyte → .reset ∉ is →
      ∃ t, execAll (.ustart :: is) s = .next t ∧ s.out <+: t.out ∧
        uoutBytes (t.out.drop s.out.length) = unpack p ∧ t.uPos.toNat = p.length % 8

/-- R164: the length of the unpacked buffer. -/
def Obligations.UnpackedLength : Prop :=
  ∀ p : List Byte,
    (unpack p).length = 7 * (p.length / 8) + (p.length % 8 - 1) ∧ (unpack p).length = p.length - (p.length + 7) / 8

/-! ### Packer -/

/-- R191: PSTART sets P_CNT to 0, writes nothing else and emits nothing. -/
def Obligations.PstartBeginsAGroup : Prop :=
  encode .pstart = 0x600000 ∧
  ∀ s : State, ∃ t, exec .pstart s = .next t ∧ t.pCnt = 0 ∧ t.pBuf = s.pBuf ∧
    SameAssembler s t ∧ SameUnpacker s t ∧ SameErr s t ∧ Emits s t [] ∧ SameHost s t

/-- R192: PBYTE holds the first six bytes of a group at `P_BUF[P_CNT]`; the seventh emits the high-bits byte and the seven data
bytes, and begins a new group. -/
def Obligations.PbyteHoldsOrEmits : Prop :=
  (∀ b : Byte, encode (.pbyte b) = 0x700000#24 ||| b.setWidth 24) ∧
  ∀ (s : State) (b : Byte), s.pCnt.toNat ≤ 6 → ∃ t, exec (.pbyte b) s = .next t ∧
    SameAssembler s t ∧ SameUnpacker s t ∧ SameErr s t ∧ SameHost s t ∧
    if s.pCnt.toNat < 6 then
      t.pCnt.toNat = s.pCnt.toNat + 1 ∧ Emits s t [] ∧
      ∀ j (h : j < 6), t.pBuf[j] = if j = s.pCnt.toNat then b else s.pBuf[j]
    else
      t.pCnt = 0 ∧ t.pBuf = s.pBuf ∧
      ∃ hb : Byte,
        Emits s t (.pout hb :: (s.pBuf.toList ++ [b]).map fun x => .pout (x &&& 0x7F)) ∧
        (∀ j (h : j < 6), hb.getLsbD j = s.pBuf[j].getLsbD 7) ∧ hb.getLsbD 6 = b.getLsbD 7 ∧ hb.getLsbD 7 = false

/-- R193: PFLUSH with `k = P_CNT > 0` emits the high-bits byte of the k bytes held and then their low 7 bits; with P_CNT = 0 it
emits nothing; P_CNT is 0 after it. -/
def Obligations.PflushEmitsThePartialGroup : Prop :=
  encode .pflush = 0x800000 ∧
  ∀ s : State, s.pCnt.toNat ≤ 6 → ∃ t, exec .pflush s = .next t ∧ t.pCnt = 0 ∧ t.pBuf = s.pBuf ∧
    SameAssembler s t ∧ SameUnpacker s t ∧ SameErr s t ∧ SameHost s t ∧
    if s.pCnt = 0 then Emits s t []
    else ∃ hb : Byte,
      Emits s t (.pout hb :: (s.pBuf.toList.take s.pCnt.toNat).map fun x => .pout (x &&& 0x7F)) ∧
      (∀ j (h : j < 6), j < s.pCnt.toNat → hb.getLsbD j = s.pBuf[j].getLsbD 7) ∧
      ∀ j, s.pCnt.toNat ≤ j → hb.getLsbD j = false

/-- R194: from any state, PSTART, the PBYTEs of `u` and PFLUSH, with commands of other units between them and no RESET, emit
exactly `pack(u)` on POUT, in order, and leave P_CNT = 0. -/
def Obligations.PackStreamIsPack : Prop :=
  ∀ (s : State) (u : List Byte) (is : List Instr),
    is.filter (fun i => unitOf i = some .packer) = u.map .pbyte → .reset ∉ is →
      ∃ t, execAll (.pstart :: (is ++ [.pflush])) s = .next t ∧ s.out <+: t.out ∧
        poutBytes (t.out.drop s.out.length) = pack u ∧ t.pCnt = 0

/-- R195: the length of the packed buffer; every byte is below 0x80; the last run of a buffer whose length is no multiple of 7
has `1 + (m mod 7)` bytes, and every other run 8. -/
def Obligations.PackedShape : Prop :=
  ∀ u : List Byte,
    (pack u).length = u.length + (u.length + 6) / 7 ∧ IsPacked (pack u) ∧
    (pack u).length = 8 * (u.length / 7) + (if u.length % 7 = 0 then 0 else 1 + u.length % 7)

/-- R196: decode after encode gives every buffer back. -/
def Obligations.UnpackAfterPack : Prop :=
  ∀ u : List Byte, unpack (pack u) = u

/-- R197: encode after decode gives back a packed buffer whose length is a multiple of 8, and one whose last run is longer than
its high-bits byte and has its unused high bits 0; it fails for every buffer whose last run is a lone high-bits byte, and for
every buffer with a byte >= 0x80, as the rule's example shows. -/
def Obligations.PackAfterUnpack : Prop :=
  (∀ p : List Byte, IsPacked p → p.length % 8 = 0 → pack (unpack p) = p) ∧
  (∀ p : List Byte, IsPacked p → 2 ≤ p.length % 8 →
    (p.getD (8 * (p.length / 8)) 0).toNat < 2 ^ (p.length % 8 - 1) → pack (unpack p) = p) ∧
  (∀ p : List Byte, p.length % 8 = 1 → pack (unpack p) ≠ p) ∧
  (∀ p : List Byte, ¬ IsPacked p → pack (unpack p) ≠ p) ∧
  unpack [0x80, 0, 0, 0, 0, 0, 0, 0] = [0, 0, 0, 0, 0, 0, 0] ∧
  pack (unpack [0x80, 0, 0, 0, 0, 0, 0, 0]) = [0, 0, 0, 0, 0, 0, 0, 0]

/-! ### Bit-field extractor -/

/-- R141: EXTRACT emits `(b >> from) & ((1 << (to - from)) - 1)` on XOUT and writes no state. -/
def Obligations.ExtractEmitsTheField : Prop :=
  (∀ (b : Byte) (lo hi : Nibble),
    encode (.extract b lo hi) = 0x900000#24 ||| (hi.setWidth 24 <<< 16) ||| (lo.setWidth 24 <<< 12) ||| b.setWidth 24) ∧
  ∀ (s : State) (b : Byte) (lo hi : Nibble), lo.toNat < hi.toNat → hi.toNat ≤ 8 →
    ∃ (t : State) (v : Byte), exec (.extract b lo hi) s = .next t ∧ Emits s t [.xout v] ∧
      v.toNat = (b.toNat >>> lo.toNat) &&& ((1 <<< (hi.toNat - lo.toNat)) - 1) ∧
      v.toNat = extractBits b lo.toNat hi.toNat ∧
      SameAssembler s t ∧ SameUnpacker s t ∧ SamePacker s t ∧ SameErr s t ∧ SameHost s t

/-- R140: the double reversal and its closed forms are one function. -/
def Obligations.DoubleReversalIsTheField : Prop :=
  ∀ (b : Byte) (lo hi : Nat), lo < hi → hi ≤ 8 →
    extractBits b lo hi = ((List.range (hi - lo)).map fun k => (b.getLsbD (lo + k)).toNat * 2 ^ k).sum ∧
    extractBits b lo hi = (b.extractLsb' lo (hi - lo)).toNat ∧
    extractBits b lo hi = (b.toNat >>> lo) &&& ((1 <<< (hi - lo)) - 1)

/-- R142: the corner cases of EXTRACT, for the field the command emits. -/
def Obligations.ExtractCornerCases : Prop :=
  (∀ b : Byte, extractField b 0 8 = b) ∧
  (∀ (b : Byte) (lo hi : Nibble), hi.toNat = lo.toNat + 1 → hi.toNat ≤ 8 →
    (extractField b lo hi).toNat = (b.getLsbD lo.toNat).toNat) ∧
  (∀ (b : Byte) (lo hi : Nibble), lo.toNat < hi.toNat → hi.toNat ≤ 8 →
    extractField 0 lo hi = 0 ∧ (extractField 0xFF lo hi).toNat = 2 ^ (hi.toNat - lo.toNat) - 1 ∧
    (extractField b lo hi).toNat < 2 ^ (hi.toNat - lo.toNat) ∧
    (b.extractLsb' lo.toNat (hi.toNat - lo.toNat) = 0 → extractField b lo hi = 0)) ∧
  (∀ (w : CmdWord) (b : Byte) (lo hi : Nibble), decode w = .ok (.extract b lo hi) → lo ≠ hi) ∧
  ∀ b : Byte, (extractField b 7 8).toNat = (b.getLsbD 7).toNat

/-! ### Units -/

/-- Commands of different units may be interleaved in any order: exchanging two of them changes nothing but the order of their
events, and in either order each emits exactly the events it emits alone (R80). -/
def Obligations.UnitsAreIndependent : Prop :=
  ∀ (i j : Instr) (u v : FunctionalUnit) (s : State), unitOf i = some u → unitOf j = some v → u ≠ v →
    ∃ (si sj a b : State) (ei ej : List Event),
      exec i s = .next si ∧ Emits s si ei ∧ exec j s = .next sj ∧ Emits s sj ej ∧
      exec j si = .next a ∧ Emits si a ej ∧ exec i sj = .next b ∧ Emits sj b ei ∧
      execAll [i, j] s = .next a ∧ a.out = s.out ++ ei ++ ej ∧
      execAll [j, i] s = .next b ∧ b.out = s.out ++ ej ++ ei ∧
      { a with out := [] } = { b with out := [] }
end

