-- ==== Sys2Proof/Laws/Memory.lean ====
section
/-! SUPPORT. The laws of the frame memory: a read after a write, and the canonical form that every write keeps. They hold of
every list, but for the canonical form, which a write keeps. -/

namespace Sys2Proof.Machine

@[simp] theorem memRead_nil (a : Nat) : memRead [] a = unlistedByte := rfl

theorem memRead_cons (c : Host.Cell) (m : Memory) (a : Nat) :
    memRead (c :: m) a = if c.1 = a then c.2 else memRead m a := rfl

@[simp] theorem eraseCell_nil (a : Nat) : eraseCell a [] = [] := rfl

theorem eraseCell_cons (a : Nat) (c : Host.Cell) (m : Memory) :
    eraseCell a (c :: m) = if c.1 = a then eraseCell a m else c :: eraseCell a m := by
  by_cases h : c.1 = a <;> simp [eraseCell, h]

theorem memRead_eraseCell (a b : Nat) (m : Memory) :
    memRead (eraseCell a m) b = if b = a then unlistedByte else memRead m b := by
  induction m with
  | nil => simp
  | cons c m ih =>
    rw [eraseCell_cons, memRead_cons]
    by_cases hca : c.1 = a
    · rw [if_pos hca, ih, hca]
      by_cases hba : b = a
      · simp [hba]
      · simp [hba, Ne.symm hba]
    · rw [if_neg hca, memRead_cons, ih]
      by_cases hba : b = a
      · simp [hba, hca]
      · simp [hba]

theorem memRead_insertCell (a b : Nat) (v : Byte) (m : Memory) (h : ∀ c ∈ m, c.1 ≠ a) :
    memRead (insertCell a v m) b = if b = a then v else memRead m b := by
  induction m with
  | nil =>
    by_cases hba : b = a
    · simp [insertCell, memRead_cons, hba]
    · simp [insertCell, memRead_cons, hba, Ne.symm hba]
  | cons c m ih =>
    have hc : c.1 ≠ a := h c (List.mem_cons_self)
    have ih := ih fun d hd => h d (List.mem_cons_of_mem c hd)
    by_cases hlt : c.1 < a
    · by_cases hba : b = a
      · subst hba; simp [insertCell, hlt, memRead_cons, ih, hc]
      · simp [insertCell, hlt, memRead_cons, ih, hba]
    · by_cases hba : b = a
      · subst hba; simp [insertCell, hlt, memRead_cons]
      · simp [insertCell, hlt, memRead_cons, hba, Ne.symm hba]

theorem ne_of_mem_eraseCell {a : Nat} {m : Memory} {c : Host.Cell} (h : c ∈ eraseCell a m) : c.1 ≠ a := by
  simpa using (List.mem_filter.mp h).2

theorem mem_of_mem_eraseCell {a : Nat} {m : Memory} {c : Host.Cell} (h : c ∈ eraseCell a m) : c ∈ m :=
  (List.mem_filter.mp h).1

/-- Everything a write does to a read: the byte written at its index, and every other byte as before. -/
theorem memRead_memWrite (m : Memory) (a b : Nat) (v : Byte) :
    memRead (memWrite m a v) b = if b = a then v else memRead m b := by
  unfold memWrite
  by_cases hv : v = unlistedByte
  · rw [if_pos hv, memRead_eraseCell, hv]
  · rw [if_neg hv, memRead_insertCell _ _ _ _ fun c hc => ne_of_mem_eraseCell hc, memRead_eraseCell]
    by_cases hba : b = a <;> simp [hba]

@[simp] theorem memRead_memWrite_self (m : Memory) (a : Nat) (v : Byte) : memRead (memWrite m a v) a = v := by
  rw [memRead_memWrite, if_pos rfl]

theorem memRead_memWrite_of_ne (m : Memory) {a b : Nat} (v : Byte) (h : b ≠ a) :
    memRead (memWrite m a v) b = memRead m b := by
  rw [memRead_memWrite, if_neg h]

/-! ### The canonical form -/

theorem mem_insertCell {a : Nat} {v : Byte} {m : Memory} {c : Host.Cell} (h : c ∈ insertCell a v m) :
    c = (a, v) ∨ c ∈ m := by
  induction m with
  | nil => exact .inl (by simpa [insertCell] using h)
  | cons d m ih =>
    by_cases hlt : d.1 < a
    · rw [insertCell, if_pos hlt] at h
      rcases List.mem_cons.mp h with rfl | h
      · exact .inr List.mem_cons_self
      · exact (ih h).imp_right (List.mem_cons_of_mem d)
    · rw [insertCell, if_neg hlt] at h
      exact List.mem_cons.mp h

theorem insertCell_rising {a : Nat} {v : Byte} {m : Memory} (hm : m.Pairwise (fun c d => c.1 < d.1))
    (ha : ∀ c ∈ m, c.1 ≠ a) : (insertCell a v m).Pairwise (fun c d => c.1 < d.1) := by
  induction m with
  | nil => simp [insertCell]
  | cons c m ih =>
    obtain ⟨hc, hm'⟩ := List.pairwise_cons.mp hm
    have hca : c.1 ≠ a := ha c List.mem_cons_self
    by_cases hlt : c.1 < a
    · rw [insertCell, if_pos hlt]
      refine List.pairwise_cons.mpr ⟨fun d hd => ?_, ih hm' fun d hd => ha d (List.mem_cons_of_mem c hd)⟩
      rcases mem_insertCell hd with rfl | hd
      · exact hlt
      · exact hc d hd
    · rw [insertCell, if_neg hlt]
      have hac : a < c.1 := by omega
      refine List.pairwise_cons.mpr ⟨fun d hd => ?_, hm⟩
      rcases List.mem_cons.mp hd with rfl | hd
      · exact hac
      · exact lt_trans hac (hc d hd)

/-- The empty memory is canonical. -/
theorem memWf_nil : Memory.wf [] := ⟨List.Pairwise.nil, fun _ h => absurd h List.not_mem_nil⟩

/-- The memory of every reset state is canonical. -/
theorem memWf_resetOf (c : Config) : Memory.wf (State.resetOf c).mem := memWf_nil

/-- The memory at reset is canonical. -/
theorem memWf_reset : Memory.wf State.reset.mem := memWf_nil

/-- Erasing an entry keeps the canonical form. -/
theorem memWf_eraseCell {m : Memory} (a : Nat) (h : Memory.wf m) : Memory.wf (eraseCell a m) :=
  ⟨List.Pairwise.sublist List.filter_sublist h.1, fun c hc => h.2 c (mem_of_mem_eraseCell hc)⟩

/-- Every write keeps the canonical form. -/
theorem memWf_memWrite {m : Memory} (a : Nat) (v : Byte) (h : Memory.wf m) : Memory.wf (memWrite m a v) := by
  have he := memWf_eraseCell a h
  unfold memWrite
  by_cases hv : v = unlistedByte
  · rw [if_pos hv]; exact he
  · rw [if_neg hv]
    refine ⟨insertCell_rising he.1 fun c hc => ne_of_mem_eraseCell hc, fun c hc => ?_⟩
    rcases mem_insertCell hc with rfl | hc
    · exact hv
    · exact he.2 c hc

/-- The entries of a written memory: the new one, or an old one. -/
theorem mem_memWrite {m : Memory} {a : Nat} {v : Byte} {c : Host.Cell} (h : c ∈ memWrite m a v) :
    c.1 = a ∨ c ∈ m := by
  unfold memWrite at h
  by_cases hv : v = unlistedByte
  · rw [if_pos hv] at h; exact .inr (mem_of_mem_eraseCell h)
  · rw [if_neg hv] at h
    exact (mem_insertCell h).imp (fun hc => by rw [hc]) mem_of_mem_eraseCell

/-! ### The bytes of a frame -/

@[simp] theorem length_memBytes (m : Memory) (n : Nat) : (memBytes m n).length = n := by
  simp [memBytes]

theorem memBytes_succ (m : Memory) (n : Nat) : memBytes m (n + 1) = memBytes m n ++ [memRead m n] := by
  simp [memBytes, List.range_succ]

/-- The bytes below `n` depend on the reads below `n` only. -/
theorem memBytes_congr {m m' : Memory} {n : Nat} (h : ∀ i, i < n → memRead m i = memRead m' i) :
    memBytes m n = memBytes m' n := by
  unfold memBytes
  exact List.map_congr_left fun i hi => h i (List.mem_range.mp hi)

/-- Writing at the end of a frame appends the byte. -/
theorem memBytes_append (m : Memory) (n : Nat) (v : Byte) : memBytes (memWrite m n v) (n + 1) = memBytes m n ++ [v] := by
  rw [memBytes_succ, memRead_memWrite_self,
    memBytes_congr fun i hi => memRead_memWrite_of_ne m v (Nat.ne_of_lt hi)]

end Sys2Proof.Machine
end

