-- ==== Sys2Proof/Laws/State.lean ====
section
/-! SUPPORT. One lemma per field per update of the state, each true by rfl, so that no later proof unfolds an update. -/

namespace Sys2Proof.Machine

variable (s : State)

/-! ### emit -/

@[simp] theorem State.emit_config (evs : List Event) : (s.emit evs).config = s.config := rfl
@[simp] theorem State.emit_rx (evs : List Event) : (s.emit evs).rx = s.rx := rfl
@[simp] theorem State.emit_fv (evs : List Event) : (s.emit evs).fv = s.fv := rfl
@[simp] theorem State.emit_len (evs : List Event) : (s.emit evs).len = s.len := rfl
@[simp] theorem State.emit_mem (evs : List Event) : (s.emit evs).mem = s.mem := rfl
@[simp] theorem State.emit_uPos (evs : List Event) : (s.emit evs).uPos = s.uPos := rfl
@[simp] theorem State.emit_uHb (evs : List Event) : (s.emit evs).uHb = s.uHb := rfl
@[simp] theorem State.emit_pCnt (evs : List Event) : (s.emit evs).pCnt = s.pCnt := rfl
@[simp] theorem State.emit_pBuf (evs : List Event) : (s.emit evs).pBuf = s.pBuf := rfl
@[simp] theorem State.emit_lastErr (evs : List Event) : (s.emit evs).lastErr = s.lastErr := rfl
@[simp] theorem State.emit_port (evs : List Event) : (s.emit evs).port = s.port := rfl
@[simp] theorem State.emit_out (evs : List Event) : (s.emit evs).out = s.out ++ evs := rfl

/-! ### setFrame -/

@[simp] theorem State.setFrame_config (r f : Bool) (n : Nat) : (s.setFrame r f n).config = s.config := rfl
@[simp] theorem State.setFrame_rx (r f : Bool) (n : Nat) : (s.setFrame r f n).rx = r := rfl
@[simp] theorem State.setFrame_fv (r f : Bool) (n : Nat) : (s.setFrame r f n).fv = f := rfl
@[simp] theorem State.setFrame_len (r f : Bool) (n : Nat) : (s.setFrame r f n).len = n := rfl
@[simp] theorem State.setFrame_mem (r f : Bool) (n : Nat) : (s.setFrame r f n).mem = s.mem := rfl
@[simp] theorem State.setFrame_uPos (r f : Bool) (n : Nat) : (s.setFrame r f n).uPos = s.uPos := rfl
@[simp] theorem State.setFrame_uHb (r f : Bool) (n : Nat) : (s.setFrame r f n).uHb = s.uHb := rfl
@[simp] theorem State.setFrame_pCnt (r f : Bool) (n : Nat) : (s.setFrame r f n).pCnt = s.pCnt := rfl
@[simp] theorem State.setFrame_pBuf (r f : Bool) (n : Nat) : (s.setFrame r f n).pBuf = s.pBuf := rfl
@[simp] theorem State.setFrame_lastErr (r f : Bool) (n : Nat) : (s.setFrame r f n).lastErr = s.lastErr := rfl
@[simp] theorem State.setFrame_port (r f : Bool) (n : Nat) : (s.setFrame r f n).port = s.port := rfl
@[simp] theorem State.setFrame_out (r f : Bool) (n : Nat) : (s.setFrame r f n).out = s.out := rfl

/-! ### store -/

@[simp] theorem State.store_config (a : Nat) (v : Byte) : (s.store a v).config = s.config := rfl
@[simp] theorem State.store_rx (a : Nat) (v : Byte) : (s.store a v).rx = s.rx := rfl
@[simp] theorem State.store_fv (a : Nat) (v : Byte) : (s.store a v).fv = s.fv := rfl
@[simp] theorem State.store_len (a : Nat) (v : Byte) : (s.store a v).len = s.len := rfl
@[simp] theorem State.store_mem (a : Nat) (v : Byte) : (s.store a v).mem = memWrite s.mem a v := rfl
@[simp] theorem State.store_uPos (a : Nat) (v : Byte) : (s.store a v).uPos = s.uPos := rfl
@[simp] theorem State.store_uHb (a : Nat) (v : Byte) : (s.store a v).uHb = s.uHb := rfl
@[simp] theorem State.store_pCnt (a : Nat) (v : Byte) : (s.store a v).pCnt = s.pCnt := rfl
@[simp] theorem State.store_pBuf (a : Nat) (v : Byte) : (s.store a v).pBuf = s.pBuf := rfl
@[simp] theorem State.store_lastErr (a : Nat) (v : Byte) : (s.store a v).lastErr = s.lastErr := rfl
@[simp] theorem State.store_port (a : Nat) (v : Byte) : (s.store a v).port = s.port := rfl
@[simp] theorem State.store_out (a : Nat) (v : Byte) : (s.store a v).out = s.out := rfl

/-! ### setUPos -/

@[simp] theorem State.setUPos_config (p : BitVec 3) : (s.setUPos p).config = s.config := rfl
@[simp] theorem State.setUPos_rx (p : BitVec 3) : (s.setUPos p).rx = s.rx := rfl
@[simp] theorem State.setUPos_fv (p : BitVec 3) : (s.setUPos p).fv = s.fv := rfl
@[simp] theorem State.setUPos_len (p : BitVec 3) : (s.setUPos p).len = s.len := rfl
@[simp] theorem State.setUPos_mem (p : BitVec 3) : (s.setUPos p).mem = s.mem := rfl
@[simp] theorem State.setUPos_uPos (p : BitVec 3) : (s.setUPos p).uPos = p := rfl
@[simp] theorem State.setUPos_uHb (p : BitVec 3) : (s.setUPos p).uHb = s.uHb := rfl
@[simp] theorem State.setUPos_pCnt (p : BitVec 3) : (s.setUPos p).pCnt = s.pCnt := rfl
@[simp] theorem State.setUPos_pBuf (p : BitVec 3) : (s.setUPos p).pBuf = s.pBuf := rfl
@[simp] theorem State.setUPos_lastErr (p : BitVec 3) : (s.setUPos p).lastErr = s.lastErr := rfl
@[simp] theorem State.setUPos_port (p : BitVec 3) : (s.setUPos p).port = s.port := rfl
@[simp] theorem State.setUPos_out (p : BitVec 3) : (s.setUPos p).out = s.out := rfl

/-! ### setUHb -/

@[simp] theorem State.setUHb_config (b : Byte) : (s.setUHb b).config = s.config := rfl
@[simp] theorem State.setUHb_rx (b : Byte) : (s.setUHb b).rx = s.rx := rfl
@[simp] theorem State.setUHb_fv (b : Byte) : (s.setUHb b).fv = s.fv := rfl
@[simp] theorem State.setUHb_len (b : Byte) : (s.setUHb b).len = s.len := rfl
@[simp] theorem State.setUHb_mem (b : Byte) : (s.setUHb b).mem = s.mem := rfl
@[simp] theorem State.setUHb_uPos (b : Byte) : (s.setUHb b).uPos = s.uPos := rfl
@[simp] theorem State.setUHb_uHb (b : Byte) : (s.setUHb b).uHb = b := rfl
@[simp] theorem State.setUHb_pCnt (b : Byte) : (s.setUHb b).pCnt = s.pCnt := rfl
@[simp] theorem State.setUHb_pBuf (b : Byte) : (s.setUHb b).pBuf = s.pBuf := rfl
@[simp] theorem State.setUHb_lastErr (b : Byte) : (s.setUHb b).lastErr = s.lastErr := rfl
@[simp] theorem State.setUHb_port (b : Byte) : (s.setUHb b).port = s.port := rfl
@[simp] theorem State.setUHb_out (b : Byte) : (s.setUHb b).out = s.out := rfl

/-! ### setPCnt -/

@[simp] theorem State.setPCnt_config (n : BitVec 3) : (s.setPCnt n).config = s.config := rfl
@[simp] theorem State.setPCnt_rx (n : BitVec 3) : (s.setPCnt n).rx = s.rx := rfl
@[simp] theorem State.setPCnt_fv (n : BitVec 3) : (s.setPCnt n).fv = s.fv := rfl
@[simp] theorem State.setPCnt_len (n : BitVec 3) : (s.setPCnt n).len = s.len := rfl
@[simp] theorem State.setPCnt_mem (n : BitVec 3) : (s.setPCnt n).mem = s.mem := rfl
@[simp] theorem State.setPCnt_uPos (n : BitVec 3) : (s.setPCnt n).uPos = s.uPos := rfl
@[simp] theorem State.setPCnt_uHb (n : BitVec 3) : (s.setPCnt n).uHb = s.uHb := rfl
@[simp] theorem State.setPCnt_pCnt (n : BitVec 3) : (s.setPCnt n).pCnt = n := rfl
@[simp] theorem State.setPCnt_pBuf (n : BitVec 3) : (s.setPCnt n).pBuf = s.pBuf := rfl
@[simp] theorem State.setPCnt_lastErr (n : BitVec 3) : (s.setPCnt n).lastErr = s.lastErr := rfl
@[simp] theorem State.setPCnt_port (n : BitVec 3) : (s.setPCnt n).port = s.port := rfl
@[simp] theorem State.setPCnt_out (n : BitVec 3) : (s.setPCnt n).out = s.out := rfl

/-! ### setPBuf -/

@[simp] theorem State.setPBuf_config (j : Nat) (b : Byte) : (s.setPBuf j b).config = s.config := rfl
@[simp] theorem State.setPBuf_rx (j : Nat) (b : Byte) : (s.setPBuf j b).rx = s.rx := rfl
@[simp] theorem State.setPBuf_fv (j : Nat) (b : Byte) : (s.setPBuf j b).fv = s.fv := rfl
@[simp] theorem State.setPBuf_len (j : Nat) (b : Byte) : (s.setPBuf j b).len = s.len := rfl
@[simp] theorem State.setPBuf_mem (j : Nat) (b : Byte) : (s.setPBuf j b).mem = s.mem := rfl
@[simp] theorem State.setPBuf_uPos (j : Nat) (b : Byte) : (s.setPBuf j b).uPos = s.uPos := rfl
@[simp] theorem State.setPBuf_uHb (j : Nat) (b : Byte) : (s.setPBuf j b).uHb = s.uHb := rfl
@[simp] theorem State.setPBuf_pCnt (j : Nat) (b : Byte) : (s.setPBuf j b).pCnt = s.pCnt := rfl
@[simp] theorem State.setPBuf_pBuf (j : Nat) (b : Byte) : (s.setPBuf j b).pBuf = s.pBuf.setIfInBounds j b := rfl
@[simp] theorem State.setPBuf_lastErr (j : Nat) (b : Byte) : (s.setPBuf j b).lastErr = s.lastErr := rfl
@[simp] theorem State.setPBuf_port (j : Nat) (b : Byte) : (s.setPBuf j b).port = s.port := rfl
@[simp] theorem State.setPBuf_out (j : Nat) (b : Byte) : (s.setPBuf j b).out = s.out := rfl

/-! ### setPort -/

@[simp] theorem State.setPort_config (p : List PortInput) : (s.setPort p).config = s.config := rfl
@[simp] theorem State.setPort_rx (p : List PortInput) : (s.setPort p).rx = s.rx := rfl
@[simp] theorem State.setPort_fv (p : List PortInput) : (s.setPort p).fv = s.fv := rfl
@[simp] theorem State.setPort_len (p : List PortInput) : (s.setPort p).len = s.len := rfl
@[simp] theorem State.setPort_mem (p : List PortInput) : (s.setPort p).mem = s.mem := rfl
@[simp] theorem State.setPort_uPos (p : List PortInput) : (s.setPort p).uPos = s.uPos := rfl
@[simp] theorem State.setPort_uHb (p : List PortInput) : (s.setPort p).uHb = s.uHb := rfl
@[simp] theorem State.setPort_pCnt (p : List PortInput) : (s.setPort p).pCnt = s.pCnt := rfl
@[simp] theorem State.setPort_pBuf (p : List PortInput) : (s.setPort p).pBuf = s.pBuf := rfl
@[simp] theorem State.setPort_lastErr (p : List PortInput) : (s.setPort p).lastErr = s.lastErr := rfl
@[simp] theorem State.setPort_port (p : List PortInput) : (s.setPort p).port = p := rfl
@[simp] theorem State.setPort_out (p : List PortInput) : (s.setPort p).out = s.out := rfl

/-! ### raise -/

@[simp] theorem State.raise_config (c : ErrCode) : (s.raise c).config = s.config := rfl
@[simp] theorem State.raise_rx (c : ErrCode) : (s.raise c).rx = s.rx := rfl
@[simp] theorem State.raise_fv (c : ErrCode) : (s.raise c).fv = s.fv := rfl
@[simp] theorem State.raise_len (c : ErrCode) : (s.raise c).len = s.len := rfl
@[simp] theorem State.raise_mem (c : ErrCode) : (s.raise c).mem = s.mem := rfl
@[simp] theorem State.raise_uPos (c : ErrCode) : (s.raise c).uPos = s.uPos := rfl
@[simp] theorem State.raise_uHb (c : ErrCode) : (s.raise c).uHb = s.uHb := rfl
@[simp] theorem State.raise_pCnt (c : ErrCode) : (s.raise c).pCnt = s.pCnt := rfl
@[simp] theorem State.raise_pBuf (c : ErrCode) : (s.raise c).pBuf = s.pBuf := rfl
@[simp] theorem State.raise_lastErr (c : ErrCode) : (s.raise c).lastErr = c := rfl
@[simp] theorem State.raise_port (c : ErrCode) : (s.raise c).port = s.port := rfl
@[simp] theorem State.raise_out (c : ErrCode) : (s.raise c).out = s.out ++ [.err c] := rfl

/-! ### resetUnits -/

@[simp] theorem State.resetUnits_config : s.resetUnits.config = s.config := rfl
@[simp] theorem State.resetUnits_rx : s.resetUnits.rx = false := rfl
@[simp] theorem State.resetUnits_fv : s.resetUnits.fv = false := rfl
@[simp] theorem State.resetUnits_len : s.resetUnits.len = 0 := rfl
@[simp] theorem State.resetUnits_mem : s.resetUnits.mem = s.mem := rfl
@[simp] theorem State.resetUnits_uPos : s.resetUnits.uPos = 0 := rfl
@[simp] theorem State.resetUnits_uHb : s.resetUnits.uHb = s.uHb := rfl
@[simp] theorem State.resetUnits_pCnt : s.resetUnits.pCnt = 0 := rfl
@[simp] theorem State.resetUnits_pBuf : s.resetUnits.pBuf = s.pBuf := rfl
@[simp] theorem State.resetUnits_lastErr : s.resetUnits.lastErr = .none := rfl
@[simp] theorem State.resetUnits_port : s.resetUnits.port = s.port := rfl
@[simp] theorem State.resetUnits_out : s.resetUnits.out = s.out := rfl

/-- Emitting nothing changes nothing. -/
@[simp] theorem State.emit_nil : s.emit [] = s := by
  simp [State.emit]

/-- Presenting what the port already holds changes nothing. -/
@[simp] theorem State.setPort_self : s.setPort s.port = s := rfl

end Sys2Proof.Machine
end

