-- ==== Sys2Proof/Laws/Ops.lean ====
section
/-! SUPPORT. For each shared operation, once, what it does: the frame assembler's four updates, the capacity check, the
unpacked byte, the packed group and the held bytes. -/

namespace Sys2Proof.Machine

/-! ### The capacity check -/

/-- There is room exactly when LEN is below MAX_FRAME_LEN. -/
theorem hasRoom_iff (s : State) : hasRoom s.config s.len = true ↔ LenBelowMax s := by
  unfold hasRoom LenBelowMax
  cases s.config.maxFrameLen <;> simp

/-- There is no room exactly when MAX_FRAME_LEN is finite and LEN has reached it. -/
theorem hasRoom_eq_false_iff (s : State) : hasRoom s.config s.len = false ↔ LenAtMax s := by
  unfold hasRoom LenAtMax
  cases s.config.maxFrameLen <;> simp

/-! ### The frame assembler's updates -/

/-- All that starting a frame does (R221). -/
theorem startFrame_eq (s : State) (b : Byte) :
    startFrame s b = { s with mem := memWrite s.mem 0 b, rx := true, fv := false, len := 1 } := rfl

/-- All that appending a byte does (R223). -/
theorem appendByte_eq (s : State) (b : Byte) :
    appendByte s b = { s with mem := memWrite s.mem s.len b, len := s.len + 1 } := rfl

/-- All that completing a frame does (R222). -/
theorem completeFrame_eq (s : State) (b : Byte) :
    completeFrame s b = { s with mem := memWrite s.mem s.len b, rx := false, fv := true, len := s.len + 1 } := rfl

/-- All that aborting a frame does (R224, R227). -/
theorem abortFrame_eq (s : State) (c : ErrCode) :
    abortFrame s c = { s with rx := false, len := 0, lastErr := c, out := s.out ++ [.err c] } := rfl

/-- All that raising an error does (R272). -/
theorem raise_eq (s : State) (c : ErrCode) : s.raise c = { s with lastErr := c, out := s.out ++ [.err c] } := rfl

/-! ### The codec's operations -/

/-- The unpacked byte, bit by bit: the data byte, with bit `pos-1` of the high-bits byte ORed into bit 7 (R160). -/
theorem getLsbD_unpackByte (hb d : Byte) (pos k : Nat) (h1 : 1 ≤ pos) (h7 : pos ≤ 7) :
    (unpackByte hb pos d).getLsbD k = (d.getLsbD k || (decide (k = 7) && hb.getLsbD (pos - 1))) := by
  unfold unpackByte
  by_cases hk : k < 8
  · interval_cases pos <;> interval_cases k <;> simp
  · have h7' : k ≠ 7 := by omega
    simp [BitVec.getLsbD_of_ge _ _ (Nat.not_lt.mp hk), h7']

/-- Bit k of the high-bits byte is bit 7 of byte k of the group (R190). -/
theorem getLsbD_highBitsFrom (grp : List Byte) (j k : Nat) :
    (highBitsFrom j grp).getLsbD k = (decide (j ≤ k ∧ k < 8) && (grp.getD (k - j) 0).getLsbD 7) := by
  induction grp generalizing j with
  | nil => simp [highBitsFrom]
  | cons b rest ih =>
    rw [highBitsFrom, BitVec.getLsbD_or, ih, BitVec.getLsbD_shiftLeft, BitVec.getLsbD_ushiftRight]
    by_cases hk : k < 8
    · rcases lt_trichotomy k j with h | h | h
      · have h1 : ¬ j ≤ k := by omega
        have h2 : ¬ j + 1 ≤ k := by omega
        simp [hk, h, h1, h2]
      · subst h; simp [hk]
      · have h1 : ¬ k < j := by omega
        have h2 : j ≤ k := by omega
        have h3 : j + 1 ≤ k := by omega
        have h4 : k - j = (k - (j + 1)) + 1 := by omega
        have h5 : b.getLsbD (7 + (k - (j + 1) + 1)) = false := BitVec.getLsbD_of_ge _ _ (by omega)
        simp [hk, h1, h2, h3, h5, h4]
    · simp [hk]

theorem getLsbD_highBits (grp : List Byte) (k : Nat) :
    (highBits grp).getLsbD k = (decide (k < 8) && (grp.getD k 0).getLsbD 7) := by
  simp [highBits, getLsbD_highBitsFrom]

/-- The extracted field, exactly: narrowing to a byte loses nothing (R140). -/
theorem toNat_extractField (b : Byte) (lo hi : Nibble) :
    (extractField b lo hi).toNat = (b.toNat >>> lo.toNat) &&& ((1 <<< (hi.toNat - lo.toNat)) - 1) := by
  rw [extractField, BitVec.toNat_ofNat]
  refine Nat.mod_eq_of_lt (lt_of_le_of_lt Nat.and_le_left (lt_of_le_of_lt ?_ b.isLt))
  rw [Nat.shiftRight_eq_div_pow]
  exact Nat.div_le_self _ _

@[simp] theorem length_packGroup (grp : List Byte) : (packGroup grp).length = grp.length + 1 := by
  simp [packGroup]

/-- The packer holds P_CNT bytes, while P_CNT is at most 6 (R39). -/
theorem length_heldBytes (s : State) (h : s.pCnt.toNat ≤ 6) : s.heldBytes.length = s.pCnt.toNat := by
  simp [State.heldBytes, h]

end Sys2Proof.Machine
end

