-- ==== Sys2Proof/Laws/PerInstr.lean ====
section
/-! SUPPORT. A fact of every command as syntax, one lemma per constructor: the fields that the decoder reads first from its
word are the ones that the encoding tables give it. -/

namespace Sys2Proof

theorem opField_joinFields (op to_ from_ rsv : Nibble) (d : Byte) : opField (joinFields op to_ from_ rsv d) = op := by
  ext i hi
  interval_cases i <;> simp [opField, joinFields]

theorem toField_joinFields (op to_ from_ rsv : Nibble) (d : Byte) : toField (joinFields op to_ from_ rsv d) = to_ := by
  ext i hi
  interval_cases i <;> simp [toField, joinFields]

theorem fromField_joinFields (op to_ from_ rsv : Nibble) (d : Byte) :
    fromField (joinFields op to_ from_ rsv d) = from_ := by
  ext i hi
  interval_cases i <;> simp [fromField, joinFields]

theorem rsvField_joinFields (op to_ from_ rsv : Nibble) (d : Byte) : rsvField (joinFields op to_ from_ rsv d) = rsv := by
  ext i hi
  interval_cases i <;> simp [rsvField, joinFields]

theorem dataField_joinFields (op to_ from_ rsv : Nibble) (d : Byte) : dataField (joinFields op to_ from_ rsv d) = d := by
  ext i hi
  interval_cases i <;> simp [dataField, joinFields]

/-- The word's OP field is its operation's code, and its RSV field is 0 (R101, R102). -/
def Laws.OpField.Statement (i : Instr) : Prop := opField (encode i) = i.op.code ∧ rsvField (encode i) = 0

theorem Laws.opField_encode (i : Instr) : Laws.OpField.Statement i :=
  ⟨opField_joinFields _ _ _ _ _, rsvField_joinFields _ _ _ _ _⟩

theorem Laws.OpField.nop : Laws.OpField.Statement .nop := Laws.opField_encode _

theorem Laws.OpField.feedSox : Laws.OpField.Statement .feedSox := Laws.opField_encode _

theorem Laws.OpField.feedEox : Laws.OpField.Statement .feedEox := Laws.opField_encode _

theorem Laws.OpField.feedData (b : Byte) : Laws.OpField.Statement (.feedData b) := Laws.opField_encode _

theorem Laws.OpField.feedStatus (b : Byte) : Laws.OpField.Statement (.feedStatus b) := Laws.opField_encode _

theorem Laws.OpField.take : Laws.OpField.Statement .take := Laws.opField_encode _

theorem Laws.OpField.reset : Laws.OpField.Statement .reset := Laws.opField_encode _

theorem Laws.OpField.ustart : Laws.OpField.Statement .ustart := Laws.opField_encode _

theorem Laws.OpField.ubyte (b : Byte) : Laws.OpField.Statement (.ubyte b) := Laws.opField_encode _

theorem Laws.OpField.pstart : Laws.OpField.Statement .pstart := Laws.opField_encode _

theorem Laws.OpField.pbyte (b : Byte) : Laws.OpField.Statement (.pbyte b) := Laws.opField_encode _

theorem Laws.OpField.pflush : Laws.OpField.Statement .pflush := Laws.opField_encode _

theorem Laws.OpField.extract (b : Byte) (lo hi : Nibble) : Laws.OpField.Statement (.extract b lo hi) :=
  Laws.opField_encode _

end Sys2Proof
end

