-- ==== Sys2Proof/Laws/Step.lean ====
section
/-! SUPPORT. What each meaning and the step can do, said once: one lemma per meaning, with the next state written out, and
the step by its input. -/

namespace Sys2Proof.Machine

/-! ### One lemma per meaning -/

theorem exec_feedSox (s : State) : exec .feedSox s = .next (startFrame s soxByte) := rfl

/-- The three cases of EOX (R222, R226, R227). -/
theorem exec_feedEox_cases (s : State) :
    (s.rx = false ∧ exec .feedEox s = .next s) ∨
    (s.rx = true ∧ LenBelowMax s ∧ exec .feedEox s = .next (completeFrame s eoxByte)) ∨
    (s.rx = true ∧ LenAtMax s ∧ exec .feedEox s = .next (abortFrame s .overflow)) := by
  by_cases hr : s.rx = true
  · by_cases hl : hasRoom s.config s.len = true
    · exact .inr (.inl ⟨hr, (hasRoom_iff s).mp hl, by simp [exec, execFeedEox, hr, hl]⟩)
    · have hl := Bool.eq_false_iff.mpr hl
      exact .inr (.inr ⟨hr, (hasRoom_eq_false_iff s).mp hl, by simp [exec, execFeedEox, hr, hl]⟩)
  · exact .inl ⟨Bool.eq_false_iff.mpr hr, by simp [exec, execFeedEox, hr]⟩

/-- The three cases of a data byte (R223, R225, R227). -/
theorem exec_feedData_cases (b : Byte) (s : State) :
    (s.rx = false ∧ exec (.feedData b) s = .next s) ∨
    (s.rx = true ∧ LenBelowMax s ∧ exec (.feedData b) s = .next (appendByte s b)) ∨
    (s.rx = true ∧ LenAtMax s ∧ exec (.feedData b) s = .next (abortFrame s .overflow)) := by
  by_cases hr : s.rx = true
  · by_cases hl : hasRoom s.config s.len = true
    · exact .inr (.inl ⟨hr, (hasRoom_iff s).mp hl, by simp [exec, execFeedData, hr, hl]⟩)
    · have hl := Bool.eq_false_iff.mpr hl
      exact .inr (.inr ⟨hr, (hasRoom_eq_false_iff s).mp hl, by simp [exec, execFeedData, hr, hl]⟩)
  · exact .inl ⟨Bool.eq_false_iff.mpr hr, by simp [exec, execFeedData, hr]⟩

/-- The two cases of a status byte (R224, R228). -/
theorem exec_feedStatus_cases (b : Byte) (s : State) :
    (s.rx = false ∧ exec (.feedStatus b) s = .next s) ∨
    (s.rx = true ∧ exec (.feedStatus b) s = .next (abortFrame s .protocol)) := by
  by_cases hr : s.rx = true
  · exact .inr ⟨hr, by simp [exec, execFeedStatus, hr]⟩
  · exact .inl ⟨Bool.eq_false_iff.mpr hr, by simp [exec, execFeedStatus, hr]⟩

/-- The two cases of TAKE (R230). -/
theorem exec_take_cases (s : State) :
    (s.fv = true ∧
      exec .take s = .next ((s.emit [.frame (some (memBytes s.mem s.len))]).setFrame s.rx false 0)) ∨
    (s.fv = false ∧ exec .take s = .next (s.emit [.frame none])) := by
  by_cases hf : s.fv = true
  · exact .inl ⟨hf, by simp [exec, execTake, hf]⟩
  · exact .inr ⟨Bool.eq_false_iff.mpr hf, by simp [exec, execTake, hf]⟩

/-- The two cases of UBYTE (R162). -/
theorem exec_ubyte_cases (b : Byte) (s : State) :
    (s.uPos = 0 ∧ exec (.ubyte b) s = .next ((s.setUHb b).setUPos 1)) ∨
    (s.uPos ≠ 0 ∧
      exec (.ubyte b) s = .next ((s.emit [.uout (unpackByte s.uHb s.uPos.toNat b)]).setUPos (s.uPos + 1))) := by
  by_cases hu : s.uPos = 0
  · exact .inl ⟨hu, by simp [exec, execUbyte, hu]⟩
  · exact .inr ⟨hu, if_neg hu⟩

/-- The two cases of PBYTE (R192). -/
theorem exec_pbyte_cases (b : Byte) (s : State) :
    (s.pCnt.toNat < 6 ∧ exec (.pbyte b) s = .next ((s.setPBuf s.pCnt.toNat b).setPCnt (s.pCnt + 1))) ∨
    (6 ≤ s.pCnt.toNat ∧
      exec (.pbyte b) s = .next ((s.emit ((packGroup (s.pBuf.toList ++ [b])).map .pout)).setPCnt 0)) := by
  by_cases hp : s.pCnt.toNat < 6
  · exact .inl ⟨hp, if_pos hp⟩
  · exact .inr ⟨Nat.not_lt.mp hp, if_neg hp⟩

/-- The two cases of PFLUSH (R193). -/
theorem exec_pflush_cases (s : State) :
    (s.pCnt = 0 ∧ exec .pflush s = .next s) ∨
    (s.pCnt ≠ 0 ∧ exec .pflush s = .next ((s.emit ((packGroup s.heldBytes).map .pout)).setPCnt 0)) := by
  by_cases hp : s.pCnt = 0
  · exact .inl ⟨hp, if_pos hp⟩
  · exact .inr ⟨hp, if_neg hp⟩

/-! ### The step by its input -/

theorem nextInput_nil {s : State} (h : s.port = []) : nextInput s = none := by
  simp [nextInput, h]

theorem nextInput_cons {s : State} {p : PortInput} {rest : List PortInput} (h : s.port = p :: rest) :
    nextInput s = some (p, s.setPort rest) := by
  simp [nextInput, h]

theorem step_idle {s : State} (h : s.port = []) : step s = idleStep s := by
  simp [step, nextInput_nil h]

theorem step_rst {s : State} {rest : List PortInput} (h : s.port = .rst :: rest) :
    step s = hardwareReset (s.setPort rest) := by
  simp [step, nextInput_cons h]

theorem step_word {s : State} {w : CmdWord} {rest : List PortInput} (h : s.port = .word w :: rest) :
    step s = stepWord w (s.setPort rest) := by
  simp [step, nextInput_cons h]

end Sys2Proof.Machine
end

