-- ==== Sys2Proof/Tests/Slice0.lean ====
section
/-! SUPPORT. The model's own tests: ill-formed terms refused, words written out from the encoding tables decoded, small
steps with results taken from spec/95_test_vectors.md and the rules' own examples, and for every statement with hypotheses
a concrete case that meets them. -/

namespace Sys2Proof.Tests

open Sys2Proof Sys2Proof.Machine

/-! ### Helpers -/

/-- The next state, if there is one. -/
def nextOf (o : Host.Outcome State Fault Refusal) : Option State :=
  match o with
  | .next s => some s
  | .fault _ => none
  | .refused _ => none

/-- What a test looks at: RX, FV, LEN, LAST_ERR and the events. -/
def looks (o : Host.Outcome State Fault Refusal) : Option (Bool × Bool × Nat × ErrCode × List Event) :=
  (nextOf o).map fun s => (s.rx, s.fv, s.len, s.lastErr, s.out)

/-- RECEIVING, with a frame of the given bytes in progress, in a memory of the given capacity. -/
def receiving (c : Capacity) (bs : List Byte) : State :=
  { State.resetOf { maxFrameLen := c } with
    rx := true, len := bs.length, mem := ((bs.zipIdx).filter (fun p => p.1 ≠ 0)).map fun p => (p.2, p.1) }

/-- IDLE, with the frame F0 01 F7 completed and not taken. -/
def holding : State :=
  { State.reset with fv := true, len := 3, mem := [(0, 0xF0), (1, 0x01), (2, 0xF7)] }

/-- The packer holding 1, 2, ... in P_BUF, the given number of them in the group. -/
def packing (n : BitVec 3) : State := { State.reset with pCnt := n, pBuf := #v[0x81, 0x02, 0x83, 0x04, 0x85, 0x06] }

/-- The unpacker at a position of a run with the given high-bits byte. -/
def unpacking (p : BitVec 3) (hb : Byte) : State := { State.reset with uPos := p, uHb := hb }

/-! ### WellFormed: a term that each check refuses, and one at its edge that it passes -/

theorem test_wf_data_refuses_status_byte : (Instr.feedData 0x80).wellFormed = false := by decide
theorem test_wf_status_refuses_data_byte : (Instr.feedStatus 0x7F).wellFormed = false := by decide
theorem test_wf_status_refuses_sox : (Instr.feedStatus 0xF0).wellFormed = false := by decide
theorem test_wf_status_refuses_eox : (Instr.feedStatus 0xF7).wellFormed = false := by decide
theorem test_wf_extract_refuses_zero_width : (Instr.extract 0x6C 3 3).wellFormed = false := by decide
theorem test_wf_extract_refuses_to_nine : (Instr.extract 0x6C 0 9).wellFormed = false := by decide
theorem test_wf_edges_pass :
    (Instr.feedData 0x7F).wellFormed = true ∧ (Instr.feedStatus 0x80).wellFormed = true ∧
    (Instr.feedStatus 0xFF).wellFormed = true ∧ (Instr.extract 0xFF 7 8).wellFormed = true ∧
    (Instr.extract 0xFF 0 8).wellFormed = true := by decide
theorem test_wf_config_refuses_one : Config.wf { maxFrameLen := .bytes 1 } = false := by decide
theorem test_wf_memory_refuses_zero_entry : ¬ Memory.wf [(0, 0xF0), (1, 0)] := by decide
theorem test_wf_memory_refuses_order : ¬ Memory.wf [(1, 0xF0), (0, 1)] := by decide

/-! ### Decoding: each row's word written out from R101 and R107 as OP TO FROM RSV DATA -/

theorem test_decode_nop : decode 0b0000_0000_0000_0000_00000000 = .ok .nop := by decide
theorem test_decode_feedSox : decode 0b0001_0000_0000_0000_11110000 = .ok .feedSox := by decide
theorem test_decode_feedEox : decode 0b0001_0000_0000_0000_11110111 = .ok .feedEox := by decide
theorem test_decode_feedData : decode 0b0001_0000_0000_0000_01010011 = .ok (.feedData 0x53) := by decide
theorem test_decode_feedStatus : decode 0b0001_0000_0000_0000_11111000 = .ok (.feedStatus 0xF8) := by decide
theorem test_decode_take : decode 0b0010_0000_0000_0000_00000000 = .ok .take := by decide
theorem test_decode_reset : decode 0b0011_0000_0000_0000_00000000 = .ok .reset := by decide
theorem test_decode_ustart : decode 0b0100_0000_0000_0000_00000000 = .ok .ustart := by decide
theorem test_decode_ubyte : decode 0b0101_0000_0000_0000_10000110 = .ok (.ubyte 0x86) := by decide
theorem test_decode_pstart : decode 0b0110_0000_0000_0000_00000000 = .ok .pstart := by decide
theorem test_decode_pbyte : decode 0b0111_0000_0000_0000_10000101 = .ok (.pbyte 0x85) := by decide
theorem test_decode_pflush : decode 0b1000_0000_0000_0000_00000000 = .ok .pflush := by decide
theorem test_decode_extract : decode 0b1001_0110_0100_0000_01101100 = .ok (.extract 0x6C 4 6) := by decide
theorem test_decode_illegal_words :
    decode 0x000001 = .error .dataNotZero ∧ decode 0x1001F0 = .error .reservedField ∧
    decode 0x110000 = .error .boundsOutsideExtract ∧ decode 0xF00000 = .error .reservedOp ∧
    decode 0x99006C = .error .extractBounds ∧ decode 0x90006C = .error .extractBounds ∧
    decode 0x93306C = .error .extractBounds ∧ decode 0x96416C = .error .reservedField := by decide
theorem test_decodeTableWord : decodeTableWord 24 0x9840A5 = some (.extract 0xA5 4 8) := by decide
theorem test_encode_extract : encode (.extract 0xB4 2 5) = 0x9520B4 := by decide

/-! ### Steps, from spec/95_test_vectors.md section 2 and the rules' examples -/

theorem test_fetch_runs_the_word :
    looks (step (State.reset.withFetchWord 24 0x1000F0)) = some (true, false, 1, .none, []) := by decide
/-- C1. -/
theorem test_nop : nextOf (exec .nop holding) = some holding := by decide
/-- C4. -/
theorem test_illegal_word :
    (nextOf (step (holding.withFetchWord 24 0xA00000))).map (fun s => (s.fv, s.len, s.status, s.out)) =
      some (true, 3, 0x000E, [.err .illegalCmd]) := by decide
/-- C3. -/
theorem test_illegal_word_leaves_frame :
    looks (step ((receiving .unbounded [0xF0, 1]).withFetchWord 24 0x1001F0)) =
      some (true, false, 2, .illegalCmd, [.err .illegalCmd]) := by decide
/-- F7. -/
theorem test_feedSox_drops_frame : looks (exec .feedSox holding) = some (true, false, 1, .none, []) := by decide
/-- F13: SOX at LEN = MAX restarts. -/
theorem test_feedSox_at_capacity :
    looks (exec .feedSox (receiving (.bytes 2) [0xF0, 1])) = some (true, false, 1, .none, []) := by decide
/-- R222's example. -/
theorem test_feedEox_completes :
    (nextOf (exec .feedEox (receiving .unbounded [0xF0, 0x10, 0x20]))).map
      (fun s => (s.rx, s.fv, memBytes s.mem s.len)) = some (false, true, [0xF0, 0x10, 0x20, 0xF7]) := by decide
/-- F10. -/
theorem test_feedEox_overflows :
    looks (exec .feedEox (receiving (.bytes 3) [0xF0, 1, 2])) = some (false, false, 0, .overflow, [.err .overflow]) := by
  decide
/-- F14: the data bytes 00 and 7F. -/
theorem test_feedData_zero_and_top :
    ((nextOf (exec (.feedData 0) (receiving .unbounded [0xF0]))).bind fun s => nextOf (exec (.feedData 0x7F) s)).map
      (fun s => memBytes s.mem s.len) = some [0xF0, 0x00, 0x7F] := by decide
/-- P4 line 8. -/
theorem test_feedData_overflows :
    looks (exec (.feedData 4) (receiving (.bytes 4) [0xF0, 1, 2, 3])) =
      some (false, false, 0, .overflow, [.err .overflow]) := by decide
/-- F6. -/
theorem test_feedStatus_aborts :
    (nextOf (exec (.feedStatus 0xF8) (receiving .unbounded [0xF0, 1]))).map (fun s => (s.status, s.len, s.out)) =
      some (0x0004, 0, [.err .protocol]) := by decide
/-- F12: PROTOCOL, not OVERFLOW, at LEN = MAX. -/
theorem test_feedStatus_at_capacity :
    looks (exec (.feedStatus 0x81) (receiving (.bytes 2) [0xF0, 1])) =
      some (false, false, 0, .protocol, [.err .protocol]) := by decide
/-- F8. -/
theorem test_feed_in_idle :
    nextOf (exec (.feedData 0x55) holding) = some holding ∧ nextOf (exec .feedEox holding) = some holding ∧
    nextOf (exec (.feedStatus 0x90) holding) = some holding := by decide
/-- F8. -/
theorem test_take_frame :
    looks (exec .take holding) = some (false, false, 0, .none, [.frame (some [0xF0, 0x01, 0xF7])]) := by decide
/-- F9. -/
theorem test_take_while_receiving :
    looks (exec .take (receiving .unbounded [0xF0, 1])) = some (true, false, 2, .none, [.frame none]) := by decide
/-- C6. -/
theorem test_reset :
    (nextOf (exec .reset { receiving .unbounded [0xF0, 1] with uPos := 3, pCnt := 4, lastErr := .protocol })).map
      (fun s => (s.status, s.len, s.out)) = some (0x0000, 0, []) := by decide
theorem test_hardware_reset :
    (nextOf (step { holding with port := [.rst, .word 0x200000] })).map (fun s => (s.status, s.len, s.port)) =
      some (0x0000, 0, [.word 0x200000]) := by decide
/-- R161's example. -/
theorem test_ustart : (nextOf (exec .ustart (unpacking 3 0x55))).map (fun s => (s.uPos, s.out)) = some (0, []) := by decide
/-- U7 and U1: the high-bits byte emits nothing; bit 0 of it raises the byte at position 1. -/
theorem test_ubyte_first_positions :
    (nextOf (exec (.ubyte 0x01) (unpacking 0 0))).map (fun s => (s.uPos, s.uHb, s.out)) = some (1, 0x01, []) ∧
    (nextOf (exec (.ubyte 0x05) (unpacking 1 0x01))).map (fun s => (s.uPos, s.out)) = some (2, [.uout 0x85]) := by decide
/-- U2: bit 6 of the high-bits byte at position 7, and the wrap. -/
theorem test_ubyte_last_position :
    (nextOf (exec (.ubyte 0x7F) (unpacking 7 0x40))).map (fun s => (s.uPos, s.out)) = some (0, [.uout 0xFF]) := by decide
/-- R191's example. -/
theorem test_pstart : (nextOf (exec .pstart (packing 4))).map (fun s => (s.pCnt, s.out)) = some (0, []) := by decide
/-- P3 line 20. -/
theorem test_pbyte_emits_the_group :
    (nextOf (exec (.pbyte 0x87) (packing 6))).map (fun s => (s.pCnt, s.out)) =
      some (0, [.pout 0x55, .pout 1, .pout 2, .pout 3, .pout 4, .pout 5, .pout 6, .pout 7]) := by decide
theorem test_pbyte_holds :
    (nextOf (exec (.pbyte 0x42) (packing 5))).map (fun s => (s.pCnt, s.pBuf[5], s.pBuf[4], s.out)) =
      some (6, 0x42, 0x85, []) := by decide
/-- K8 and K9's shape, with two bytes. -/
theorem test_pflush_partial :
    (nextOf (exec .pflush (packing 2))).map (fun s => (s.pCnt, s.out)) = some (0, [.pout 0x01, .pout 1, .pout 2]) := by
  decide
theorem test_pflush_empty : nextOf (exec .pflush (packing 0)) = some (packing 0) := by decide
/-- Section 2.1. -/
theorem test_extract_vectors :
    extractField 0x6C 4 6 = 2 ∧ extractField 0xFF 0 8 = 0xFF ∧ extractField 0xA5 0 4 = 5 ∧ extractField 0xA5 4 8 = 0xA ∧
    extractField 0x80 7 8 = 1 ∧ extractField 0x7F 7 8 = 0 ∧ extractField 0xB4 2 5 = 5 ∧ extractField 0 3 7 = 0 := by decide
theorem test_extract : looks (exec (.extract 0x10 4 6) holding) = some (false, true, 3, .none, [.xout 1]) := by decide

/-! ### The reference functions and the assembler, from spec/95_test_vectors.md -/

/-- S10 and U4. -/
theorem test_unpack : unpack [0x55, 1, 2, 3, 4, 5, 6, 7] = [0x81, 2, 0x83, 4, 0x85, 6, 0x87] ∧
    unpack [0x03, 0x11, 0x22] = [0x91, 0xA2] := by decide
/-- K5. -/
theorem test_pack : pack [0x80, 0x81, 0x82, 0x83, 0x84, 0x85, 0x86, 0x87] = [0x7F, 0, 1, 2, 3, 4, 5, 6, 0x01, 0x07] := by
  decide
/-- S3, S4, S6. -/
theorem test_extractBits : extractBits 0x6C 4 6 = 2 ∧ extractBits 0x02 0 2 = 2 ∧ extractBits 0x20 4 6 = 2 := by decide
/-- F5 and the second sentence of section 1.1. -/
theorem test_framesOf : framesOf [0xF0, 1, 0xF0, 2, 0xF7] = [[0xF0, 2, 0xF7]] ∧ framesOf [0xF0, 0x81, 0xF7] = [] := by
  decide
theorem test_assembleLine :
    assembleLine ['E', 'X', 'T', 'R', 'A', 'C', 'T', ' ', '0', 'x', '6', 'C', ',', ' ', '4', ',', '6', ' ', ';', 'f'] =
      some [.extract 0x6C 4 6] := by decide
theorem test_assembleLine_rejects :
    assembleLine ['F', 'E', 'E', 'D', ' ', '2', '5', '6'] = none ∧ assembleLine ['f', 'e', 'e', 'd', ' ', '1'] = none := by
  decide
/-- The model's choice (log entry 17), not the spec's. -/
theorem test_assembleLine_feeds_and_recv_empty :
    assembleLine ['F', 'E', 'E', 'D', 'S'] = some [] ∧ assembleLine ['R', 'E', 'C', 'V'] = some [.take] := by decide
theorem test_assembleLine_pack_empty : assembleLine ['P', 'A', 'C', 'K'] = some [.pstart, .pflush] := by decide

/-! ### Witnesses: for each statement with hypotheses, a case that meets them all -/

/-- A state that meets the invariant: RECEIVING F0 01 in a memory of 3 bytes, the packer full. -/
def inFrame : State := { receiving (.bytes 3) [0xF0, 1] with pCnt := 6 }

theorem witness_inv_receiving : Inv inFrame where
  frame := {
    exclusive := by decide
    receiving := fun _ => ⟨by decide, by decide, fun i h0 h2 => by
      have h2 : i < 2 := h2
      have : i = 1 := by omega
      subst this; decide⟩
    completed := fun h => absurd h (by decide)
    empty := fun h => absurd h (by decide)
    capacity := fun max h => by
      have h : Capacity.bytes 3 = .bytes max := h
      injection h with h; subst h; decide }
  packer := by decide
  config := by decide
  memory := by decide
  inRange := fun max h => by
    have h : Capacity.bytes 3 = .bytes max := h
    injection h with h; subst h; decide

/-- An IDLE state that meets the invariant, with a frame held and an unbounded memory, about to TAKE. -/
def aboutToTake : State := { holding with port := [.word 0x200000] }

theorem witness_inv_holding : Inv aboutToTake where
  frame := {
    exclusive := by decide
    receiving := fun h => absurd h (by decide)
    completed := fun _ => ⟨by decide, by decide, by decide, fun i h0 h2 => by
      have h2 : i < 2 := h2
      have : i = 1 := by omega
      subst this; decide⟩
    empty := fun _ h => absurd h (by decide)
    capacity := fun max h => Capacity.noConfusion h }
  packer := by decide
  config := by decide
  memory := by decide
  inRange := fun max h => Capacity.noConfusion h

theorem witness_atReset_with_draws :
    AtReset { State.reset with mem := [(0, 0x55)], uHb := 0x33, pBuf := Vector.replicate 6 0x7F, port := [.word 0] } where
  rx := rfl
  fv := rfl
  len := rfl
  uPos := rfl
  pCnt := rfl
  lastErr := rfl

theorem witness_step_keeps_invariant :
    Inv aboutToTake ∧ ∃ t, step aboutToTake = .next t ∧ .frame (some [0xF0, 0x01, 0xF7]) ∈ t.out.drop aboutToTake.out.length :=
  ⟨witness_inv_holding, _, rfl, by decide⟩

theorem witness_config_wf_edge : Config.wf { maxFrameLen := .bytes 2 } = true := by decide

theorem witness_decoded_word : decode 0x9870FF = .ok (.extract 0xFF 7 8) := by decide

theorem witness_illegal_on_port :
    ∃ (s : State) (rest : List PortInput), s.port = .word 0x99006C :: rest ∧ ∃ why, decode 0x99006C = .error why :=
  ⟨{ State.reset with port := [.word 0x99006C] }, [], rfl, .extractBounds, by decide⟩

theorem witness_real_time_edges :
    classify 0xF8 = .status ∧ classify 0xFF = .status ∧ classify 0x80 = .status ∧ classify 0xEF = .status ∧
    classify 0xF1 = .status ∧ classify 0xF6 = .status := by decide

theorem witness_assembler_edges :
    (assemble .extract [255, 7, 8]).map encode = some 0x9870FF ∧ assemble .feed [256] = none ∧
    assemble .extract [255, 0, 9] = none ∧ assemble .extract [0, 4, 4] = none := by decide

theorem witness_word_on_port :
    ∃ (s : State) (rest : List PortInput), s.port = .word 0x200000 :: rest ∧ decode 0x200000 = .ok .take :=
  ⟨aboutToTake, [], rfl, by decide⟩

theorem witness_rst_on_port : ({ holding with port := [.rst] } : State).port = .rst :: [] := rfl

theorem witness_nothing_on_port : holding.port = [] := rfl

theorem witness_wellformed_list : ∀ i ∈ [Instr.feedSox, .feedData 0x7F, .feedEox, .take], i.wellFormed = true := by decide

theorem witness_raising_steps :
    (nextOf (step ((receiving .unbounded [0xF0]).withFetchWord 24 0x100081))).map (fun t => errCodes t.out) =
      some [.protocol] ∧
    (nextOf (step ((receiving (.bytes 2) [0xF0, 1]).withFetchWord 24 0x1000F7))).map (fun t => errCodes t.out) =
      some [.overflow] ∧
    (nextOf (step (holding.withFetchWord 24 0x300000))).map (fun t => (errCodes t.out, t.lastErr)) = some ([], .none) := by
  decide

theorem witness_step_without_error :
    (nextOf (step (({ holding with lastErr := .overflow } : State).withFetchWord 24 0x200000))).map
      (fun t => (errCodes t.out, t.lastErr)) = some ([], .overflow) := by decide

theorem witness_at_capacity : (receiving (.bytes 2) [0xF0, 1]).rx = true ∧ LenAtMax (receiving (.bytes 2) [0xF0, 1]) :=
  ⟨rfl, 2, rfl, by decide⟩

/-- A full frame memory with a frame in progress, which meets INV_FA. -/
theorem witness_frameInv_at_capacity :
    FrameInv (receiving (.bytes 2) [0xF0, 1]) ∧ (receiving (.bytes 2) [0xF0, 1]).rx = true ∧
      LenAtMax (receiving (.bytes 2) [0xF0, 1]) where
  left := {
    exclusive := by decide
    receiving := fun _ => ⟨by decide, by decide, fun i h0 h2 => by
      have h2 : i < 2 := h2
      have : i = 1 := by omega
      subst this; decide⟩
    completed := fun h => absurd h (by decide)
    empty := fun h => absurd h (by decide)
    capacity := fun max h => by
      have h : Capacity.bytes 2 = .bytes max := h
      injection h with h; subst h; decide }
  right := witness_at_capacity

theorem witness_below_capacity : (receiving (.bytes 2) [0xF0]).rx = true ∧ LenBelowMax (receiving (.bytes 2) [0xF0]) :=
  ⟨rfl, fun max h => by
    have h : Capacity.bytes 2 = .bytes max := h
    injection h with h; subst h; decide⟩

theorem witness_below_unbounded :
    (receiving .unbounded [0xF0]).rx = true ∧ LenBelowMax (receiving .unbounded [0xF0]) :=
  ⟨rfl, fun _ h => Capacity.noConfusion h⟩

theorem witness_idle : holding.rx = false ∧ ∀ b ∈ [0xF7#8, 0x80#8, 0x00#8], b ≠ 0xF0 := by decide

theorem witness_frame_of_max_bytes :
    looks (execAll [.feedSox, .feedEox] (State.resetOf { maxFrameLen := .bytes 2 })) = some (false, true, 2, .none, []) := by
  decide

theorem witness_frame_over_max_bytes :
    looks (execAll [.feedSox, .feedData 1, .feedEox] (State.resetOf { maxFrameLen := .bytes 2 })) =
      some (false, false, 0, .overflow, [.err .overflow]) := by decide

theorem witness_frame_held : holding.fv = true ∧ 2 < holding.len ∧ ¬ (holding.fv = true ∧ 3 < holding.len) := by decide

theorem witness_fv_set_and_cleared :
    (receiving .unbounded [0xF0]).fv = false ∧ (nextOf (exec .feedEox (receiving .unbounded [0xF0]))).map (·.fv) = some true ∧
    holding.fv = true ∧ (nextOf (exec .feedSox holding)).map (·.fv) = some false ∧
    (nextOf (exec .take holding)).map (·.fv) = some false ∧ (nextOf (exec .reset holding)).map (·.fv) = some false := by
  decide

theorem witness_memory_changes :
    (nextOf (exec .feedSox State.reset)).map (fun t => memRead t.mem 0) = some 0xF0 ∧ memRead State.reset.mem 0 = 0 ∧
    (nextOf (exec (.feedData 5) (receiving .unbounded [0xF0]))).map (fun t => memRead t.mem 1) = some 5 ∧
    memRead (receiving .unbounded [0xF0]).mem 1 = 0 := by decide

/-- LEN written by each of the commands that may: SOX, the other FEEDs while RECEIVING, TAKE with a frame held, RESET. -/
theorem witness_len_changes :
    [exec .feedSox State.reset, exec .feedEox (receiving .unbounded [0xF0]), exec (.feedData 5) (receiving .unbounded [0xF0]),
     exec (.feedStatus 0x81) (receiving .unbounded [0xF0]), exec .take holding, exec .reset holding].map
      (fun o => (nextOf o).map (·.len)) = [some 1, some 2, some 2, some 0, some 0, some 0] ∧
    State.reset.len = 0 ∧ (receiving .unbounded [0xF0]).len = 1 ∧ holding.len = 3 := by decide

/-- Two states that differ in every value R40 calls unobservable. -/
theorem witness_obsEq :
    ObsEq State.reset
      { State.reset with mem := [(0, 0x55)], uHb := 0x33, pBuf := Vector.replicate 6 0x7F } where
  config := rfl
  rx := rfl
  fv := rfl
  len := rfl
  mem := fun i h => absurd h (Nat.not_lt_zero i)
  uPos := rfl
  uHb := fun h => absurd rfl h
  pCnt := rfl
  pBuf := fun j _ h => absurd h (Nat.not_lt_zero j)
  lastErr := rfl
  port := rfl
  out := rfl

theorem witness_frames_from_reset :
    State.reset.rx = false ∧ State.reset.fv = false ∧ State.reset.config.maxFrameLen = .unbounded := by decide

theorem witness_inv_unbounded : Inv aboutToTake ∧ aboutToTake.config.maxFrameLen = .unbounded := ⟨witness_inv_holding, rfl⟩

theorem witness_streams :
    [Instr.ubyte 3, .feedSox, .ubyte 0x11, .nop, .pbyte 1].filter (fun i => unitOf i = some .unpacker) =
      [0x03, 0x11].map .ubyte ∧
    [Instr.ubyte 3, .feedSox, .ubyte 0x11, .nop, .pbyte 1].filter (fun i => unitOf i = some .packer) = [0x01].map .pbyte ∧
    Instr.reset ∉ [Instr.ubyte 3, .feedSox, .ubyte 0x11, .nop, .pbyte 1] := by decide

theorem witness_packer_edges : (packing 0).pCnt.toNat ≤ 6 ∧ (packing 5).pCnt.toNat < 6 ∧ (packing 6).pCnt.toNat ≤ 6 := by
  decide

/-- S11, a last run of 2 bytes, one of 7 bytes, and a lone high-bits byte. -/
theorem witness_pack_after_unpack :
    pack (unpack [0x2A, 0x10, 0x20, 0x30, 0x40, 0x50, 0x60, 0x70]) = [0x2A, 0x10, 0x20, 0x30, 0x40, 0x50, 0x60, 0x70] ∧
    pack (unpack [0x01, 0x33]) = [0x01, 0x33] ∧
    pack (unpack [0x3F, 1, 2, 3, 4, 5, 6]) = [0x3F, 1, 2, 3, 4, 5, 6] ∧ pack (unpack [0x7F]) = [] := by decide

/-- A last run of 2 bytes and one of 7, each with the unused high bits 0 and the highest used one set. -/
theorem witness_packed_buffers :
    (IsPacked [0x01, 0x33] ∧ 2 ≤ [0x01#8, 0x33#8].length % 8 ∧ ([0x01#8, 0x33#8].getD 0 0).toNat < 2 ^ (2 - 1)) ∧
    (IsPacked [0x3F, 1, 2, 3, 4, 5, 6] ∧ ([0x3F#8, 1, 2, 3, 4, 5, 6].getD 0 0).toNat < 2 ^ (7 - 1)) ∧
    IsPacked [0x2A, 0, 0, 0, 0, 0, 0, 0x7F] ∧ [0x7F#8].length % 8 = 1 := by
  unfold IsPacked
  decide

/-- A buffer just outside the packed ones, as a high-bits byte and as the last data byte. -/
theorem witness_not_packed : ¬ IsPacked [0x80, 0, 0, 0, 0, 0, 0, 0] ∧ ¬ IsPacked [0, 0, 0, 0, 0, 0, 0, 0x80] := by
  unfold IsPacked
  decide

theorem witness_extract_bounds : (0#4).toNat < (8#4).toNat ∧ (7#4).toNat < (8#4).toNat ∧ (8#4).toNat ≤ 8 := by decide

/-- A frame assembler command and a packer command that each emit. -/
theorem witness_two_units_emit :
    (nextOf (exec (.feedStatus 0x81) { receiving .unbounded [0xF0] with pCnt := 1 })).map (·.out) = some [.err .protocol] ∧
    (nextOf (exec .pflush { receiving .unbounded [0xF0] with pCnt := 1 })).map (·.out) = some [.pout 0, .pout 0] := by
  decide

theorem witness_two_units :
    unitOf (.feedStatus 0x81) = some .assembler ∧ unitOf (.pbyte 1) = some .packer ∧
    FunctionalUnit.assembler ≠ .packer := by decide

end Sys2Proof.Tests
end

section
/-! PROOF. The decoder read backwards (R112): the word of a decoded command is the command's word, and its operands meet
the conditions of R104 and R105. -/

namespace Sys2Proof

theorem noOperand_eq_ok {d : Byte} {i j : Instr} (h : noOperand d i = .ok j) : d = 0 ∧ j = i := by
  unfold noOperand at h
  split at h
  · next hd => cases h; exact ⟨hd, rfl⟩
  · cases h

theorem decodeExtract_eq_ok {d : Byte} {lo hi : Nibble} {j : Instr} (h : decodeExtract d lo hi = .ok j) :
    j = .extract d lo hi ∧ lo.toNat < hi.toNat ∧ hi.toNat ≤ 8 := by
  unfold decodeExtract at h
  split at h
  · next hb => cases h; exact ⟨rfl, hb⟩
  · cases h

theorem opOfCode_eq_some {c : Nibble} {op : Op} (h : opOfCode c = some op) : c = op.code := by
  unfold opOfCode at h
  split at h <;> cases h <;> exact BitVec.eq_of_toNat_eq ‹_›

theorem eq_extract_of_code {op : Op} (h : op.code = 0x9) : op = .extract := by
  revert h
  cases op <;> decide

/-- The four cases of FEED by the class of its byte (R105), with the row that each takes. -/
theorem feedInstr_cases (b : Byte) :
    (b = soxByte ∧ classify b = .sox ∧ feedInstr b = .feedSox) ∨
    (b = eoxByte ∧ classify b = .eox ∧ feedInstr b = .feedEox) ∨
    (classify b = .status ∧ feedInstr b = .feedStatus b ∧ (Instr.feedStatus b).wellFormed = true) ∨
    (classify b = .data ∧ feedInstr b = .feedData b ∧ (Instr.feedData b).wellFormed = true) := by
  by_cases hsox : b = soxByte
  · subst hsox; exact .inl ⟨rfl, rfl, rfl⟩
  by_cases heox : b = eoxByte
  · subst heox; exact .inr (.inl ⟨rfl, rfl, rfl⟩)
  by_cases hmask : b &&& statusMask = 0
  · have hclass : classify b = .data := by
      rw [classify, if_neg hsox, if_neg heox, if_neg (not_not.mpr hmask)]
    exact .inr (.inr (.inr ⟨hclass, by rw [feedInstr, hclass], decide_eq_true hmask⟩))
  · have hclass : classify b = .status := by
      rw [classify, if_neg hsox, if_neg heox, if_pos hmask]
    refine .inr (.inr (.inl ⟨hclass, by rw [feedInstr, hclass], ?_⟩))
    rw [Instr.wellFormed, decide_eq_true hmask, decide_eq_true hsox, decide_eq_true heox]; rfl

/-- The row that FEED takes has the byte as its DATA field, and the byte is of the row's class (R105). -/
theorem feedInstr_fields (b : Byte) :
    (feedInstr b).op = .feed ∧ (feedInstr b).data = b ∧ (feedInstr b).fromBound = 0 ∧ (feedInstr b).toBound = 0 ∧
      (feedInstr b).wellFormed = true := by
  obtain ⟨rfl, -, hi⟩ | ⟨rfl, -, hi⟩ | ⟨-, hi, hwf⟩ | ⟨-, hi, hwf⟩ := feedInstr_cases b
  · exact ⟨rfl, rfl, rfl, rfl, rfl⟩
  · exact ⟨rfl, rfl, rfl, rfl, rfl⟩
  · rw [hi]; exact ⟨rfl, rfl, rfl, rfl, hwf⟩
  · rw [hi]; exact ⟨rfl, rfl, rfl, rfl, hwf⟩

/-- What the case on OP answers carries the word's fields, once TO and FROM have passed (R112). -/
theorem decodeOp_eq_ok {op : Op} {lo hi : Nibble} {d : Byte} {i : Instr} (hb : op = .extract ∨ (hi = 0 ∧ lo = 0))
    (h : decodeOp op lo hi d = .ok i) :
    i.op = op ∧ i.data = d ∧ i.fromBound = lo ∧ i.toBound = hi ∧ i.wellFormed = true := by
  cases op
  case extract =>
    obtain ⟨rfl, hlt, hle⟩ := decodeExtract_eq_ok h
    exact ⟨rfl, rfl, rfl, rfl, by simp [Instr.wellFormed, hlt, hle]⟩
  all_goals
    obtain ⟨rfl, rfl⟩ : hi = 0 ∧ lo = 0 := hb.resolve_left Op.noConfusion
  case feed => cases h; exact feedInstr_fields d
  case ubyte => cases h; exact ⟨rfl, rfl, rfl, rfl, rfl⟩
  case pbyte => cases h; exact ⟨rfl, rfl, rfl, rfl, rfl⟩
  all_goals
    obtain ⟨rfl, rfl⟩ := noOperand_eq_ok h
    exact ⟨rfl, rfl, rfl, rfl, rfl⟩

/-- A word is its five fields, each at its place (R101). -/
theorem joinFields_fields (w : CmdWord) :
    joinFields (opField w) (toField w) (fromField w) (rsvField w) (dataField w) = w := by
  ext i hi
  interval_cases i <;> simp [opField, toField, fromField, rsvField, dataField, joinFields]

/-- A decoded command is well formed and the word is its word (R112, R113). -/
theorem encode_eq_of_decode {w : CmdWord} {i : Instr} (h : decode w = .ok i) : encode i = w ∧ i.wellFormed = true := by
  unfold decode at h
  by_cases hrsv : rsvField w = 0
  case neg => rw [if_pos hrsv] at h; cases h
  by_cases hbounds : opField w ≠ 0x9 ∧ (toField w ≠ 0 ∨ fromField w ≠ 0)
  case pos => rw [if_neg (not_not.mpr hrsv), if_pos hbounds] at h; cases h
  rw [if_neg (not_not.mpr hrsv), if_neg hbounds] at h
  cases hop : opOfCode (opField w) with
  | none => rw [hop] at h; cases h
  | some op =>
    rw [hop] at h
    have hcode := opOfCode_eq_some hop
    have hb : op = .extract ∨ (toField w = 0 ∧ fromField w = 0) := by
      by_cases hnine : opField w = 0x9
      · exact .inl (eq_extract_of_code (hcode.symm.trans hnine))
      · exact .inr (by simpa using not_and.mp hbounds hnine)
    obtain ⟨rfl, hdata, hlo, hhi, hwf⟩ := decodeOp_eq_ok hb h
    refine ⟨?_, hwf⟩
    rw [encode, hdata, hlo, hhi, ← hcode, ← hrsv, joinFields_fields]

/-- RESET is one word (R107). -/
theorem decode_eq_reset_iff (w : CmdWord) : decode w = .ok .reset ↔ w = 0x300000 := by
  constructor
  · intro h
    exact (encode_eq_of_decode h).1.symm
  · rintro rfl
    decide

/-- A byte with bit 7 clear is below 0x80 (R17). -/
theorem toNat_lt_of_and_statusMask {b : Byte} (h : b &&& statusMask = 0) : b.toNat < 0x80 := by
  have hbit : b.getLsbD 7 = false := by
    have := congrArg (·.getLsbD 7) h
    simpa using this
  have hmsb : b.msb = false := by simpa [BitVec.msb_eq_getLsbD_last] using hbit
  exact BitVec.toNat_lt_of_msb_false hmsb

end Sys2Proof
end

section
/-! PROOF. What a command and a step can do, said once (R262). The frame assembler's effects and RESET are cases of their own;
every other command, and FEED in IDLE, leaves the assembler and LAST_ERR aside. -/

namespace Sys2Proof.Machine

/-! ### The effects of a command -/

/-- No byte on POUT is an error. -/
theorem errCodes_map_pout (bs : List Byte) : errCodes (bs.map .pout) = [] := by
  induction bs with
  | nil => rfl
  | cons b bs ih => exact ih

/-- From `s` to `t` the frame assembler and LAST_ERR are as they were, no error is emitted, and a legal P_CNT stays legal. -/
structure AssemblerAside (s t : State) : Prop where
  config : t.config = s.config
  rx : t.rx = s.rx
  fv : t.fv = s.fv
  len : t.len = s.len
  mem : t.mem = s.mem
  lastErr : t.lastErr = s.lastErr
  packer : s.pCnt.toNat ≤ 6 → t.pCnt.toNat ≤ 6
  noError : ∃ evs, t.out = s.out ++ evs ∧ errCodes evs = []

theorem AssemblerAside.refl (s : State) : AssemblerAside s s :=
  ⟨rfl, rfl, rfl, rfl, rfl, rfl, id, [], by simp, rfl⟩

theorem AssemblerAside.emit (s : State) {evs : List Event} (h : errCodes evs = []) : AssemblerAside s (s.emit evs) :=
  ⟨rfl, rfl, rfl, rfl, rfl, rfl, id, evs, rfl, h⟩

theorem AssemblerAside.setUPos {s t : State} (h : AssemblerAside s t) (p : BitVec 3) : AssemblerAside s (t.setUPos p) :=
  { h with }

theorem AssemblerAside.setUHb {s t : State} (h : AssemblerAside s t) (b : Byte) : AssemblerAside s (t.setUHb b) :=
  { h with }

theorem AssemblerAside.setPBuf {s t : State} (h : AssemblerAside s t) (j : Nat) (b : Byte) :
    AssemblerAside s (t.setPBuf j b) := { h with }

theorem AssemblerAside.setPCnt {s t : State} (h : AssemblerAside s t) {n : BitVec 3} (hn : n.toNat ≤ 6) :
    AssemblerAside s (t.setPCnt n) := { h with packer := fun _ => hn }

/-- A held frame, returned and cleared (R230). -/
def takeFrame (s : State) : State := (s.emit [.frame (some (memBytes s.mem s.len))]).setFrame s.rx false 0

/-- The effects that a command can have on `s`, each with the condition under which it has it. -/
inductive CommandEffect (s : State) : Instr → State → Prop where
  | start : CommandEffect s .feedSox (startFrame s soxByte)
  | append (b : Byte) (hrx : s.rx = true) (hlen : LenBelowMax s) : CommandEffect s (.feedData b) (appendByte s b)
  | complete (hrx : s.rx = true) (hlen : LenBelowMax s) : CommandEffect s .feedEox (completeFrame s eoxByte)
  | abort (i : Instr) (c : ErrCode) (hrx : s.rx = true) (hc : c ≠ .none)
      (hi : i = .feedEox ∨ (∃ b, i = .feedData b) ∨ ∃ b, i = .feedStatus b) : CommandEffect s i (abortFrame s c)
  | takeFrame (hfv : s.fv = true) : CommandEffect s .take (takeFrame s)
  | reset : CommandEffect s .reset s.resetUnits
  | aside (i : Instr) (t : State) (hi : i ≠ .reset) (h : AssemblerAside s t) : CommandEffect s i t

/-- Every command finishes in a next state, with one of these effects (R262). -/
theorem exec_effect (i : Instr) (s : State) : ∃ t, exec i s = .next t ∧ CommandEffect s i t := by
  have hrefl := AssemblerAside.refl s
  cases i with
  | nop => exact ⟨s, rfl, .aside _ _ nofun hrefl⟩
  | feedSox => exact ⟨_, rfl, .start⟩
  | feedEox =>
    obtain ⟨-, he⟩ | ⟨hrx, hlen, he⟩ | ⟨hrx, -, he⟩ := exec_feedEox_cases s
    · exact ⟨_, he, .aside _ _ nofun hrefl⟩
    · exact ⟨_, he, .complete hrx hlen⟩
    · exact ⟨_, he, .abort _ _ hrx nofun (.inl rfl)⟩
  | feedData b =>
    obtain ⟨-, he⟩ | ⟨hrx, hlen, he⟩ | ⟨hrx, -, he⟩ := exec_feedData_cases b s
    · exact ⟨_, he, .aside _ _ nofun hrefl⟩
    · exact ⟨_, he, .append b hrx hlen⟩
    · exact ⟨_, he, .abort _ _ hrx nofun (.inr (.inl ⟨b, rfl⟩))⟩
  | feedStatus b =>
    obtain ⟨-, he⟩ | ⟨hrx, he⟩ := exec_feedStatus_cases b s
    · exact ⟨_, he, .aside _ _ nofun hrefl⟩
    · exact ⟨_, he, .abort _ _ hrx nofun (.inr (.inr ⟨b, rfl⟩))⟩
  | take =>
    obtain ⟨hfv, he⟩ | ⟨-, he⟩ := exec_take_cases s
    · exact ⟨_, he, .takeFrame hfv⟩
    · exact ⟨_, he, .aside _ _ nofun (.emit s rfl)⟩
  | reset => exact ⟨_, rfl, .reset⟩
  | ustart => exact ⟨_, rfl, .aside _ _ nofun (hrefl.setUPos 0)⟩
  | ubyte b =>
    obtain ⟨-, he⟩ | ⟨-, he⟩ := exec_ubyte_cases b s
    · exact ⟨_, he, .aside _ _ nofun ((hrefl.setUHb b).setUPos 1)⟩
    · exact ⟨_, he, .aside _ _ nofun ((AssemblerAside.emit s rfl).setUPos _)⟩
  | pstart => exact ⟨_, rfl, .aside _ _ nofun (hrefl.setPCnt (by decide))⟩
  | pbyte b =>
    obtain ⟨hlt, he⟩ | ⟨-, he⟩ := exec_pbyte_cases b s
    · have hcnt : (s.pCnt + 1).toNat ≤ 6 := by bv_omega
      exact ⟨_, he, .aside _ _ nofun ((hrefl.setPBuf _ b).setPCnt hcnt)⟩
    · exact ⟨_, he, .aside _ _ nofun ((AssemblerAside.emit s (errCodes_map_pout _)).setPCnt (by decide))⟩
  | pflush =>
    obtain ⟨-, he⟩ | ⟨-, he⟩ := exec_pflush_cases s
    · exact ⟨_, he, .aside _ _ nofun hrefl⟩
    · exact ⟨_, he, .aside _ _ nofun ((AssemblerAside.emit s (errCodes_map_pout _)).setPCnt (by decide))⟩
  | extract b lo hi => exact ⟨_, rfl, .aside _ _ nofun (.emit s rfl)⟩

theorem effect_of_exec {i : Instr} {s t : State} (h : exec i s = .next t) : CommandEffect s i t := by
  obtain ⟨u, hu, heffect⟩ := exec_effect i s
  cases hu.symm.trans h
  exact heffect

/-! ### The step -/

/-- A step is idle, a hardware reset, an ILLEGAL word or a decoded command, with its input consumed (R31, R262, R301). -/
theorem step_cases {s t : State} (h : step s = .next t) :
    (s.port = [] ∧ t = s) ∨
    (∃ rest, s.port = .rst :: rest ∧ t = (s.setPort rest).resetUnits) ∨
    (∃ w why rest, s.port = .word w :: rest ∧ decode w = .error why ∧ t = (s.setPort rest).raise .illegalCmd) ∨
    ∃ w i rest, s.port = .word w :: rest ∧ decode w = .ok i ∧ CommandEffect (s.setPort rest) i t := by
  cases hport : s.port with
  | nil =>
    rw [step_idle hport] at h
    cases h
    exact .inl ⟨rfl, rfl⟩
  | cons input rest =>
    cases input with
    | rst =>
      rw [step_rst hport] at h
      cases h
      exact .inr (.inl ⟨rest, rfl, rfl⟩)
    | word w =>
      rw [step_word hport, stepWord] at h
      cases hdec : decode w with
      | error why =>
        rw [hdec] at h
        cases h
        exact .inr (.inr (.inl ⟨w, why, rest, rfl, hdec, rfl⟩))
      | ok i =>
        rw [hdec] at h
        exact .inr (.inr (.inr ⟨w, i, rest, rfl, hdec, effect_of_exec h⟩))

/-- A step always finishes in a next state (R262). -/
theorem exists_step (s : State) : ∃ t, step s = .next t := by
  cases hport : s.port with
  | nil => exact ⟨s, step_idle hport⟩
  | cons input rest =>
    cases input with
    | rst => exact ⟨_, step_rst hport⟩
    | word w =>
      rw [step_word hport, stepWord]
      cases decode w with
      | error why => exact ⟨_, rfl⟩
      | ok i => exact (exec_effect i _).imp fun _ => And.left

end Sys2Proof.Machine
end

section
/-! PROOF. The invariant: INV_FA (R36) after reset and after every step, and the machine's invariant with it (R35, R39). -/

namespace Sys2Proof.Machine

/-- A property that every command keeps, and that neither the port nor a raise bears on, is kept by every step. -/
theorem step_keeps {P : State → Prop} (hport : ∀ s p, P s → P (s.setPort p))
    (hraise : ∀ s, P s → P (s.raise .illegalCmd))
    (hexec : ∀ s t i, i.wellFormed = true → CommandEffect s i t → P s → P t)
    {s t : State} (hstep : step s = .next t) (hs : P s) : P t := by
  obtain ⟨-, rfl⟩ | ⟨rest, -, rfl⟩ | ⟨-, -, rest, -, -, rfl⟩ | ⟨w, i, rest, -, hdec, heffect⟩ := step_cases hstep
  · exact hs
  · exact hexec _ _ .reset rfl .reset (hport s rest hs)
  · exact hraise _ (hport s rest hs)
  · exact hexec _ _ i (encode_eq_of_decode hdec).2 heffect (hport s rest hs)

/-! ### INV_FA -/

/-- INV_FA holds when no frame is in progress and none is held, whatever else the state holds. -/
theorem FrameInv.of_empty {s : State} (hrx : s.rx = false) (hfv : s.fv = false) (hlen : s.len = 0) : FrameInv s where
  exclusive := by simp [hrx]
  receiving := by simp [hrx]
  completed := by simp [hfv]
  empty := fun _ _ => hlen
  capacity := fun max _ => by simp [hlen]

/-- INV_FA reads nothing but RX, FV, LEN, MEM and MAX_FRAME_LEN. -/
theorem FrameInv.congr {s t : State} (h : FrameInv s) (hconfig : t.config = s.config) (hrx : t.rx = s.rx)
    (hfv : t.fv = s.fv) (hlen : t.len = s.len) (hmem : t.mem = s.mem) : FrameInv t where
  exclusive := by rw [hrx, hfv]; exact h.exclusive
  receiving := by rw [hrx, hlen, hmem]; exact h.receiving
  completed := by rw [hfv, hlen, hmem]; exact h.completed
  empty := by rw [hrx, hfv, hlen]; exact h.empty
  capacity := by rw [hconfig, hlen]; exact h.capacity

/-- While RECEIVING no frame is held. -/
theorem FrameInv.fv_of_rx {s : State} (h : FrameInv s) (hrx : s.rx = true) : s.fv = false :=
  Bool.eq_false_iff.mpr fun hfv => h.exclusive ⟨hrx, hfv⟩

/-- While a frame is held nothing is being received. -/
theorem FrameInv.rx_of_fv {s : State} (h : FrameInv s) (hfv : s.fv = true) : s.rx = false :=
  Bool.eq_false_iff.mpr fun hrx => h.exclusive ⟨hrx, hfv⟩

/-- A legal finite MAX_FRAME_LEN is at least 2 (R8). -/
theorem two_le_of_wf {c : Config} {max : Nat} (h : c.wf = true) (hmax : c.maxFrameLen = .bytes max) : 2 ≤ max := by
  simpa [Config.wf, hmax] using h

@[simp] theorem startFrame_mem (s : State) (b : Byte) : (startFrame s b).mem = memWrite s.mem 0 b := rfl

@[simp] theorem startFrame_len (s : State) (b : Byte) : (startFrame s b).len = 1 := rfl

@[simp] theorem appendByte_mem (s : State) (b : Byte) : (appendByte s b).mem = memWrite s.mem s.len b := rfl

@[simp] theorem appendByte_len (s : State) (b : Byte) : (appendByte s b).len = s.len + 1 := rfl

@[simp] theorem completeFrame_mem (s : State) (b : Byte) : (completeFrame s b).mem = memWrite s.mem s.len b := rfl

@[simp] theorem completeFrame_len (s : State) (b : Byte) : (completeFrame s b).len = s.len + 1 := rfl

theorem frameInv_startFrame {s : State} (hwf : s.config.wf = true) : FrameInv (startFrame s soxByte) where
  exclusive := by simp [startFrame]
  receiving := fun _ => ⟨Nat.le_refl 1, by simp, fun i hi hlt => absurd hlt (Nat.not_lt.mpr hi)⟩
  completed := by simp [startFrame]
  empty := by simp [startFrame]
  capacity := fun max hmax => Nat.le_of_succ_le (two_le_of_wf hwf hmax)

/-- The bytes below LEN stay as they are when the byte at LEN is written, and LEN is not 0 while RECEIVING. -/
theorem frameInv_appendByte {s : State} {b : Byte} (h : FrameInv s) (hrx : s.rx = true) (hlen : LenBelowMax s)
    (hb : b.toNat < 0x80) : FrameInv (appendByte s b) where
  exclusive := h.exclusive
  receiving := fun _ => by
    obtain ⟨h1, h0, hdata⟩ := h.receiving hrx
    refine ⟨Nat.succ_pos _, (memRead_memWrite_of_ne _ _ (by omega)).trans h0, fun i hi hlt => ?_⟩
    rw [appendByte_mem, memRead_memWrite]
    by_cases hend : i = s.len
    · rwa [if_pos hend]
    · rw [if_neg hend]
      exact hdata i hi (Nat.lt_of_le_of_ne (Nat.le_of_lt_succ hlt) hend)
  completed := fun hfv => absurd ⟨hrx, hfv⟩ h.exclusive
  empty := fun hidle => absurd (hrx.symm.trans hidle) nofun
  capacity := fun max hmax => hlen max hmax

theorem frameInv_completeFrame {s : State} (h : FrameInv s) (hrx : s.rx = true) (hlen : LenBelowMax s) :
    FrameInv (completeFrame s eoxByte) where
  exclusive := by simp [completeFrame]
  receiving := by simp [completeFrame]
  completed := fun _ => by
    obtain ⟨h1, h0, hdata⟩ := h.receiving hrx
    have hfirst : 0 ≠ s.len := by omega
    refine ⟨Nat.succ_le_succ h1, ?_, ?_, fun i hi hlt => ?_⟩
    · rw [completeFrame_mem, memRead_memWrite_of_ne _ _ hfirst, h0]
    · rw [completeFrame_mem, completeFrame_len, Nat.add_sub_cancel, memRead_memWrite_self]
    · rw [completeFrame_len, Nat.add_sub_cancel] at hlt
      rw [completeFrame_mem, memRead_memWrite_of_ne _ _ (Nat.ne_of_lt hlt)]
      exact hdata i hi hlt
  empty := by simp [completeFrame]
  capacity := fun max hmax => hlen max hmax

/-- Every command of a build with a legal MAX_FRAME_LEN keeps INV_FA. -/
theorem CommandEffect.frameInv {s t : State} {i : Instr} (heffect : CommandEffect s i t) (hi : i.wellFormed = true)
    (hwf : s.config.wf = true) (h : FrameInv s) : FrameInv t := by
  cases heffect with
  | start => exact frameInv_startFrame hwf
  | append b hrx hlen => exact frameInv_appendByte h hrx hlen (toNat_lt_of_and_statusMask (of_decide_eq_true hi))
  | complete hrx hlen => exact frameInv_completeFrame h hrx hlen
  | abort _ c hrx _ _ => exact .of_empty rfl (h.fv_of_rx hrx) rfl
  | takeFrame hfv => exact .of_empty (h.rx_of_fv hfv) rfl rfl
  | reset => exact .of_empty rfl rfl rfl
  | aside _ _ _ ha => exact h.congr ha.config ha.rx ha.fv ha.len ha.mem

/-- No command changes the build's MAX_FRAME_LEN (R47). -/
theorem CommandEffect.config {s t : State} {i : Instr} (heffect : CommandEffect s i t) : t.config = s.config := by
  cases heffect with
  | aside _ _ _ ha => exact ha.config
  | _ => rfl

theorem AtReset.frameInv {s : State} (h : AtReset s) : FrameInv s := .of_empty h.rx h.fv h.len

/-- Settles O57: the three effects that end a frame leave the assembler empty, and the three that write MEM keep the bytes
below LEN. -/
theorem frameInvariantHoldsAfterResetAndIsKept : Obligations.FrameInvariantHoldsAfterResetAndIsKept := by
  refine ⟨fun s h => h.frameInv, fun s t hwf h hstep => ?_⟩
  have hkept : t.config.wf = true ∧ FrameInv t :=
    step_keeps (P := fun s => s.config.wf = true ∧ FrameInv s)
      (fun s p ⟨hwf, h⟩ => ⟨hwf, h.congr rfl rfl rfl rfl rfl⟩)
      (fun s ⟨hwf, h⟩ => ⟨hwf, h.congr rfl rfl rfl rfl rfl⟩)
      (fun s t i hi heffect ⟨hwf, h⟩ => ⟨by rwa [heffect.config], heffect.frameInv hi hwf h⟩)
      hstep ⟨hwf, h⟩
  exact hkept.2

/-! ### The machine's invariant -/

/-- A command writes MEM not at all, or one byte of it at an index below MAX_FRAME_LEN (R35, R70). -/
theorem CommandEffect.mem_cases {s t : State} {i : Instr} (heffect : CommandEffect s i t) (hwf : s.config.wf = true) :
    t.mem = s.mem ∨
      ∃ a v, t.mem = memWrite s.mem a v ∧ ∀ max, s.config.maxFrameLen = .bytes max → a < max := by
  cases heffect with
  | start => exact .inr ⟨0, soxByte, rfl, fun max hmax => Nat.lt_of_lt_of_le Nat.zero_lt_two (two_le_of_wf hwf hmax)⟩
  | append b _ hlen => exact .inr ⟨s.len, b, rfl, hlen⟩
  | complete _ hlen => exact .inr ⟨s.len, eoxByte, rfl, hlen⟩
  | abort => exact .inl rfl
  | takeFrame => exact .inl rfl
  | reset => exact .inl rfl
  | aside _ _ _ ha => exact .inl ha.mem

/-- P_CNT never reaches 7 (R39). -/
theorem CommandEffect.pCnt_le {s t : State} {i : Instr} (heffect : CommandEffect s i t) (h : s.pCnt.toNat ≤ 6) :
    t.pCnt.toNat ≤ 6 := by
  cases heffect with
  | reset => exact Nat.zero_le 6
  | aside _ _ _ ha => exact ha.packer h
  | _ => exact h

theorem CommandEffect.inv {s t : State} {i : Instr} (heffect : CommandEffect s i t) (hi : i.wellFormed = true)
    (h : Inv s) : Inv t where
  frame := heffect.frameInv hi h.config h.frame
  packer := heffect.pCnt_le h.packer
  config := by rw [heffect.config]; exact h.config
  memory := by
    obtain hmem | ⟨a, v, hmem, -⟩ := heffect.mem_cases h.config
    · rw [hmem]; exact h.memory
    · rw [hmem]; exact memWf_memWrite a v h.memory
  inRange := fun max hmax c hc => by
    rw [heffect.config] at hmax
    obtain hmem | ⟨a, v, hmem, ha⟩ := heffect.mem_cases h.config
    · exact h.inRange max hmax c (hmem ▸ hc)
    · obtain rfl | hold := mem_memWrite (hmem ▸ hc)
      · exact ha max hmax
      · exact h.inRange max hmax c hold

/-- Settles O17: the invariant reads neither the port nor LAST_ERR, and every command keeps each of its parts. -/
theorem everyStepKeepsTheInvariant : Obligations.EveryStepKeepsTheInvariant := fun _ _ h hstep =>
  step_keeps (P := Inv) (fun _ _ h => { h with frame := h.frame.congr rfl rfl rfl rfl rfl })
    (fun _ h => { h with frame := h.frame.congr rfl rfl rfl rfl rfl })
    (fun _ _ _ hi heffect h => heffect.inv hi h) hstep h

theorem atReset_resetOf (c : Config) : AtReset (State.resetOf c) := ⟨rfl, rfl, rfl, rfl, rfl, rfl⟩

theorem inv_resetOf {c : Config} (hwf : c.wf = true) : Inv (State.resetOf c) where
  frame := (atReset_resetOf c).frameInv
  packer := Nat.zero_le 6
  config := hwf
  memory := memWf_resetOf c
  inRange := fun _ _ _ hc => absurd hc List.not_mem_nil

/-- Settles O18: the registers at reset meet INV_FA, and the memory lists nothing. -/
theorem resetMeetsTheInvariant : Obligations.ResetMeetsTheInvariant :=
  ⟨fun _ hwf => inv_resetOf hwf, inv_resetOf rfl⟩

/-! ### LAST_ERR -/

/-- A command that emits an error writes its code into LAST_ERR; any other leaves it, but for RESET (R42). -/
theorem CommandEffect.lastErr {s t : State} {i : Instr} (heffect : CommandEffect s i t) :
    ∃ evs, t.out = s.out ++ evs ∧
      ((∃ c, c ≠ .none ∧ errCodes evs = [c] ∧ t.lastErr = c) ∨
       (errCodes evs = [] ∧ t.lastErr = if i = .reset then .none else s.lastErr)) := by
  cases heffect with
  | start => exact ⟨[], (List.append_nil _).symm, .inr ⟨rfl, rfl⟩⟩
  | append => exact ⟨[], (List.append_nil _).symm, .inr ⟨rfl, rfl⟩⟩
  | complete => exact ⟨[], (List.append_nil _).symm, .inr ⟨rfl, rfl⟩⟩
  | abort _ c _ hc => exact ⟨[.err c], rfl, .inl ⟨c, hc, rfl, rfl⟩⟩
  | takeFrame => exact ⟨_, rfl, .inr ⟨rfl, rfl⟩⟩
  | reset => exact ⟨[], (List.append_nil _).symm, .inr ⟨rfl, rfl⟩⟩
  | aside _ _ hi ha =>
    obtain ⟨evs, hout, herr⟩ := ha.noError
    exact ⟨evs, hout, .inr ⟨herr, by rw [if_neg hi, ha.lastErr]⟩⟩

/-- What a step does to the error record, with the events that it appends named (R42, R44). -/
theorem step_lastErr {s t : State} (hstep : step s = .next t) :
    ∃ evs, t.out = s.out ++ evs ∧
      ((∃ c, c ≠ .none ∧ errCodes evs = [c] ∧ t.lastErr = c) ∨
       (errCodes evs = [] ∧
         t.lastErr = if s.port.head? = some .rst ∨ s.port.head? = some (.word 0x300000) then .none else s.lastErr)) := by
  obtain ⟨hport, rfl⟩ | ⟨rest, hport, rfl⟩ | ⟨w, why, rest, hport, -, rfl⟩ | ⟨w, i, rest, hport, hdec, heffect⟩ :=
    step_cases hstep
  · exact ⟨[], (List.append_nil _).symm, .inr ⟨rfl, by simp [hport]⟩⟩
  · exact ⟨[], (List.append_nil _).symm, .inr ⟨rfl, by simp [hport]⟩⟩
  · exact ⟨_, rfl, .inl ⟨.illegalCmd, nofun, rfl, rfl⟩⟩
  · obtain ⟨evs, hout, herr⟩ := heffect.lastErr
    have hreset : i = .reset ↔ w = 0x300000 := by
      rw [← decode_eq_reset_iff, hdec, Except.ok.injEq]
    refine ⟨evs, hout, herr.imp_right fun ⟨hnone, hlast⟩ => ⟨hnone, ?_⟩⟩
    simpa [hport, hreset] using hlast

/-- Settles O16: the error that a step emits is the one that it writes, and a step is always possible. -/
theorem lastErrIsTheLatestErrorCode : Obligations.LastErrIsTheLatestErrorCode := by
  refine ⟨⟨rfl, rfl, rfl, rfl⟩, fun s t hstep => ⟨exists_step t, ?_⟩⟩
  obtain ⟨evs, hout, herr⟩ := step_lastErr hstep
  rw [hout, List.drop_left]
  refine herr.imp_right fun ⟨hnone, hlast⟩ => ⟨hnone, ?_⟩
  split
  · next hreset => rw [hlast, if_pos hreset]
  · next hkeep => rw [hlast, if_neg hkeep]

end Sys2Proof.Machine
end

section
/-! PROOF. Who writes the frame assembler's registers (R33 to R35), and what the host reads of the state (R41, R43). -/

namespace Sys2Proof.Machine

/-! ### STATUS and the read port -/

theorem status_getLsbD_zero (s : State) : s.status.getLsbD 0 = s.rx := by
  simp [State.status]

theorem status_getLsbD_one (s : State) : s.status.getLsbD 1 = s.fv := by
  simp [State.status]

theorem status_lastErr (s : State) : s.status.extractLsb' 2 2 = s.lastErr.code := by
  ext k hk
  interval_cases k <;> simp [State.status]

theorem status_uPos (s : State) : s.status.extractLsb' 4 3 = s.uPos := by
  ext k hk
  interval_cases k <;> simp [State.status]

theorem status_pCnt (s : State) : s.status.extractLsb' 7 3 = s.pCnt := by
  ext k hk
  interval_cases k <;> simp [State.status]

theorem status_unused (s : State) : s.status.extractLsb' 10 6 = 0 := by
  ext k hk
  interval_cases k <;> simp [State.status]

theorem AtReset.status {s : State} (h : AtReset s) : s.status = 0 := by
  rw [State.status, h.rx, h.fv, h.lastErr, h.uPos, h.pCnt]
  rfl

/-- Settles O40: the fields of STATUS do not overlap. -/
theorem statusFieldsShowTheRegisters : Obligations.StatusFieldsShowTheRegisters := by
  refine ⟨fun s => ⟨status_getLsbD_zero s, status_getLsbD_one s, ?_, status_uPos s, status_pCnt s, status_unused s, rfl⟩,
    fun s h => ⟨h.status, h.len⟩⟩
  rw [status_lastErr]
  cases s.lastErr <;> rfl

theorem atReset_resetUnits (s : State) : AtReset s.resetUnits := ⟨rfl, rfl, rfl, rfl, rfl, rfl⟩

/-- Settles O19: power-on and RESET write the same six registers, and STATUS shows only those. -/
theorem resetValues : Obligations.ResetValues :=
  ⟨fun c => ⟨atReset_resetOf c, (atReset_resetOf c).status⟩, atReset_resetOf _, (atReset_resetOf _).status,
    fun s => ⟨s.resetUnits, rfl, atReset_resetUnits s, (atReset_resetUnits s).status⟩⟩

theorem rdData_of_held {s : State} {addr : Nat} (h : s.fv = true ∧ addr < s.len) (draw : Byte) :
    s.rdData addr draw = memRead s.mem addr := if_pos h

theorem rdData_of_not_held {s : State} {addr : Nat} (h : ¬ (s.fv = true ∧ addr < s.len)) (draw : Byte) :
    s.rdData addr draw = draw := if_neg h

/-- Settles O41: outside the held frame the port answers its draw, so every value is one draw's answer. -/
theorem readPortReadsTheCompletedFrame : Obligations.ReadPortReadsTheCompletedFrame := fun _ _ =>
  ⟨fun hfv haddr => rdData_of_held ⟨hfv, haddr⟩, fun h v => ⟨v, rdData_of_not_held h v⟩⟩

/-! ### Who writes FV, MEM and LEN -/

theorem CommandEffect.fv_set {s t : State} {i : Instr} (heffect : CommandEffect s i t) (hs : s.fv = false)
    (ht : t.fv = true) : i = .feedEox ∧ s.rx = true := by
  cases heffect with
  | complete hrx _ => exact ⟨rfl, hrx⟩
  | start => cases ht
  | takeFrame => cases ht
  | reset => cases ht
  | append => cases hs.symm.trans ht
  | abort => cases hs.symm.trans ht
  | aside _ _ _ ha => cases (hs.symm.trans ha.fv.symm).trans ht

theorem CommandEffect.fv_cleared {s t : State} {i : Instr} (heffect : CommandEffect s i t) (hs : s.fv = true)
    (ht : t.fv = false) : i = .feedSox ∨ i = .take ∨ i = .reset := by
  cases heffect with
  | start => exact .inl rfl
  | takeFrame => exact .inr (.inl rfl)
  | reset => exact .inr (.inr rfl)
  | complete => cases ht
  | append => cases hs.symm.trans ht
  | abort => cases hs.symm.trans ht
  | aside _ _ _ ha => cases (hs.symm.trans ha.fv.symm).trans ht

/-- After TAKE no frame is held, whether or not one was (R230). -/
theorem fv_of_exec_take {s t : State} (h : exec .take s = .next t) : t.fv = false := by
  obtain ⟨-, he⟩ | ⟨hfv, he⟩ := exec_take_cases s
  · cases he.symm.trans h; rfl
  · cases he.symm.trans h; exact hfv

/-- Settles O34: of the effects of a command only `complete` sets FV, and only `start`, `takeFrame` and `reset` clear it. -/
theorem completedFrameFlagWriters : Obligations.CompletedFrameFlagWriters := by
  refine ⟨fun i s t h => ⟨(effect_of_exec h).fv_set, (effect_of_exec h).fv_cleared⟩, ?_, ?_, ?_, ?_, status_getLsbD_one⟩
  · rintro s t why ⟨⟩; rfl
  · rintro s t ⟨⟩; rfl
  · exact fun s t h => fv_of_exec_take h
  · rintro s t ⟨⟩; rfl

/-- A byte that reads otherwise after a write is the byte at the index written. -/
theorem eq_of_memRead_ne {m m' : Memory} {a b : Nat} {v : Byte} (hm : m' = memWrite m a v)
    (h : memRead m' b ≠ memRead m b) : b = a := by
  by_contra hba
  exact h (hm ▸ memRead_memWrite_of_ne m v hba)

theorem CommandEffect.mem_changed {s t : State} {i : Instr} {a : Nat} (heffect : CommandEffect s i t)
    (h : memRead t.mem a ≠ memRead s.mem a) :
    (i = .feedSox ∧ a = 0) ∨ (s.rx = true ∧ a = s.len ∧ (i = .feedEox ∨ ∃ b, i = .feedData b)) := by
  cases heffect with
  | start => exact .inl ⟨rfl, eq_of_memRead_ne (startFrame_mem s _) h⟩
  | append b hrx _ => exact .inr ⟨hrx, eq_of_memRead_ne (appendByte_mem s b) h, .inr ⟨b, rfl⟩⟩
  | complete hrx _ => exact .inr ⟨hrx, eq_of_memRead_ne (completeFrame_mem s _) h, .inl rfl⟩
  | abort => exact absurd rfl h
  | takeFrame => exact absurd rfl h
  | reset => exact absurd rfl h
  | aside _ _ _ ha => exact absurd (by rw [ha.mem]) h

theorem CommandEffect.len_changed {s t : State} {i : Instr} (heffect : CommandEffect s i t) (h : t.len ≠ s.len) :
    i = .feedSox ∨ (s.rx = true ∧ (i = .feedEox ∨ (∃ b, i = .feedData b) ∨ ∃ b, i = .feedStatus b)) ∨
      (s.fv = true ∧ i = .take) ∨ i = .reset := by
  cases heffect with
  | start => exact .inl rfl
  | append b hrx _ => exact .inr (.inl ⟨hrx, .inr (.inl ⟨b, rfl⟩)⟩)
  | complete hrx _ => exact .inr (.inl ⟨hrx, .inl rfl⟩)
  | abort _ _ hrx _ hi => exact .inr (.inl ⟨hrx, hi⟩)
  | takeFrame hfv => exact .inr (.inr (.inl ⟨hfv, rfl⟩))
  | reset => exact .inr (.inr (.inr rfl))
  | aside _ _ _ ha => exact absurd ha.len h

/-- Settles O35: of the effects of a command only `start`, `append` and `complete` write MEM, each at one index. -/
theorem onlyFeedWritesTheFrameMemory : Obligations.OnlyFeedWritesTheFrameMemory := by
  refine ⟨fun i s t a h => (effect_of_exec h).mem_changed, fun i s t h => (effect_of_exec h).len_changed, ?_⟩
  rintro why s t ⟨⟩
  exact ⟨fun _ => rfl, rfl⟩

end Sys2Proof.Machine
end

section
/-! PROOF. The frame assembler refines the document's (R37): one lemma per command, on the state read as the document's. -/

namespace Sys2Proof.Machine

theorem docAssembler_idle {s : State} (hrx : s.rx = false) :
    s.docAssembler = ⟨.idle, [], if s.fv then some (memBytes s.mem s.len) else none⟩ := by
  simp [State.docAssembler, hrx]

theorem docAssembler_receiving {s : State} (hrx : s.rx = true) (hfv : s.fv = false) :
    s.docAssembler = ⟨.receiving, memBytes s.mem s.len, none⟩ := by
  simp [State.docAssembler, hrx, hfv]

/-- With MAX_FRAME_LEN unbounded there is always room (R8). -/
theorem not_lenAtMax_of_unbounded {s : State} (h : s.config.maxFrameLen = .unbounded) : ¬ LenAtMax s := by
  rintro ⟨max, hmax, -⟩
  cases h.symm.trans hmax

theorem docAssembler_startFrame (s : State) (b : Byte) : (startFrame s b).docAssembler = ⟨.receiving, [b], none⟩ := by
  rw [docAssembler_receiving rfl rfl, startFrame_mem, startFrame_len, memBytes_append]
  rfl

theorem docAssembler_appendByte {s : State} (b : Byte) (hrx : s.rx = true) (hfv : s.fv = false) :
    (appendByte s b).docAssembler = ⟨.receiving, memBytes s.mem s.len ++ [b], none⟩ := by
  have hrx' : (appendByte s b).rx = true := hrx
  have hfv' : (appendByte s b).fv = false := hfv
  rw [docAssembler_receiving hrx' hfv', appendByte_mem, appendByte_len, memBytes_append]

theorem docAssembler_completeFrame (s : State) (b : Byte) :
    (completeFrame s b).docAssembler = ⟨.idle, [], some (memBytes s.mem s.len ++ [b])⟩ := by
  rw [docAssembler_idle rfl, completeFrame_mem, completeFrame_len, memBytes_append]
  rfl

theorem docAssembler_abortFrame {s : State} (c : ErrCode) (hfv : s.fv = false) :
    (abortFrame s c).docAssembler = ⟨.idle, [], none⟩ := by
  have hfv' : (abortFrame s c).fv = false := hfv
  rw [docAssembler_idle rfl, hfv']
  rfl

/-- `s'` and what was emitted since `s` are what the document's `feed(b)` gives (R37). -/
def RefinesDocFeed (b : Byte) (s s' : State) : Prop :=
  s'.docAssembler = (docFeed b s.docAssembler).1 ∧
    Emits s s' (if (docFeed b s.docAssembler).2 then [.err .protocol] else [])

theorem refinesDocFeed_of_eq {b : Byte} {s s' : State} {a : DocAssembler} {report : Bool}
    (hdoc : docFeed b s.docAssembler = (a, report)) (hs' : s'.docAssembler = a)
    (hout : s'.out = s.out ++ if report then [.err .protocol] else []) : RefinesDocFeed b s s' := by
  rw [RefinesDocFeed, hdoc]
  exact ⟨hs', hout⟩

/-- In IDLE the document ignores every byte but SOX. -/
theorem refinesDocFeed_ignored {b : Byte} {s : State} (hrx : s.rx = false) (hclass : classify b ≠ .sox) :
    RefinesDocFeed b s s := by
  have hdoc : docFeed b s.docAssembler = (s.docAssembler, false) := by
    rw [docAssembler_idle hrx, docFeed]
    cases hc : classify b with
    | sox => exact absurd hc hclass
    | eox => rfl
    | status => rfl
    | data => rfl
  exact refinesDocFeed_of_eq hdoc rfl (List.append_nil _).symm

theorem exec_feedInstr_refines {s : State} (h : FrameInv s) (hmax : s.config.maxFrameLen = .unbounded) (b : Byte) :
    ∃ t, exec (feedInstr b) s = .next t ∧ RefinesDocFeed b s t := by
  have hroom := not_lenAtMax_of_unbounded hmax
  obtain ⟨rfl, hclass, hi⟩ | ⟨rfl, hclass, hi⟩ | ⟨hclass, hi, -⟩ | ⟨hclass, hi, -⟩ := feedInstr_cases b
  · rw [hi]
    exact ⟨_, rfl, refinesDocFeed_of_eq (by rw [docFeed, hclass]) (docAssembler_startFrame s _) (List.append_nil _).symm⟩
  · rw [hi]
    obtain ⟨hrx, he⟩ | ⟨hrx, -, he⟩ | ⟨-, hfull, -⟩ := exec_feedEox_cases s
    · exact ⟨_, he, refinesDocFeed_ignored hrx (hclass.trans_ne nofun)⟩
    · have hdoc := docAssembler_receiving hrx (h.fv_of_rx hrx)
      exact ⟨_, he, refinesDocFeed_of_eq (by rw [docFeed, hclass, hdoc]) (docAssembler_completeFrame s _)
        (List.append_nil _).symm⟩
    · exact absurd hfull hroom
  · rw [hi]
    obtain ⟨hrx, he⟩ | ⟨hrx, he⟩ := exec_feedStatus_cases b s
    · exact ⟨_, he, refinesDocFeed_ignored hrx (hclass.trans_ne nofun)⟩
    · have hfv := h.fv_of_rx hrx
      exact ⟨_, he, refinesDocFeed_of_eq (by rw [docFeed, hclass, docAssembler_receiving hrx hfv])
        (docAssembler_abortFrame _ hfv) rfl⟩
  · rw [hi]
    obtain ⟨hrx, he⟩ | ⟨hrx, -, he⟩ | ⟨-, hfull, -⟩ := exec_feedData_cases b s
    · exact ⟨_, he, refinesDocFeed_ignored hrx (hclass.trans_ne nofun)⟩
    · have hfv := h.fv_of_rx hrx
      exact ⟨_, he, refinesDocFeed_of_eq (by rw [docFeed, hclass, docAssembler_receiving hrx hfv])
        (docAssembler_appendByte b hrx hfv) (List.append_nil _).symm⟩
    · exact absurd hfull hroom

theorem docTake_of_none {a : DocAssembler} (h : a.completed = none) : docTake a = (a, none) := by
  cases a
  cases h
  rfl

theorem exec_take_refines {s : State} (h : FrameInv s) :
    ∃ t, exec .take s = .next t ∧ t.docAssembler = (docTake s.docAssembler).1 ∧
      Emits s t [.frame (docTake s.docAssembler).2] := by
  obtain ⟨hfv, he⟩ | ⟨hfv, he⟩ := exec_take_cases s
  · have hrx := h.rx_of_fv hfv
    have hdoc : s.docAssembler = ⟨.idle, [], some (memBytes s.mem s.len)⟩ := by rw [docAssembler_idle hrx, if_pos hfv]
    rw [hdoc]
    exact ⟨_, he, docAssembler_idle hrx, rfl⟩
  · have hnone : s.docAssembler.completed = none := by simp [State.docAssembler, hfv]
    rw [docTake_of_none hnone]
    exact ⟨_, he, rfl, rfl⟩

/-- Settles O39: INV_FA rules out a held frame while RECEIVING, and an unbounded memory never overflows. -/
theorem assemblerRefinesTheDocument : Obligations.AssemblerRefinesTheDocument := fun _ h hmax =>
  ⟨exec_feedInstr_refines h.frame hmax, exec_take_refines h.frame⟩

end Sys2Proof.Machine
end

section
/-! PROOF. Noninterference (R40): every operation takes two states that agree on what can be observed to two that agree again.
Each lemma names the read that makes it so. -/

namespace Sys2Proof.Machine

/-! ### The operations on the state -/

theorem ObsEq.emit {s t : State} (h : ObsEq s t) (evs : List Event) : ObsEq (s.emit evs) (t.emit evs) :=
  { h with out := congrArg (· ++ evs) h.out }

theorem ObsEq.raise {s t : State} (h : ObsEq s t) (c : ErrCode) : ObsEq (s.raise c) (t.raise c) :=
  { h.emit [.err c] with lastErr := rfl }

theorem ObsEq.setPort {s t : State} (h : ObsEq s t) (p : List PortInput) : ObsEq (s.setPort p) (t.setPort p) :=
  { h with port := rfl }

theorem ObsEq.store {s t : State} (h : ObsEq s t) (a : Nat) (v : Byte) : ObsEq (s.store a v) (t.store a v) :=
  { h with mem := fun i hi => by rw [State.store_mem, State.store_mem, memRead_memWrite, memRead_memWrite, h.mem i hi] }

/-- LEN may be set to where the two memories agree that far. -/
theorem ObsEq.setFrame {s t : State} (h : ObsEq s t) (rx fv : Bool) {n : Nat}
    (hmem : ∀ i, i < n → memRead s.mem i = memRead t.mem i) : ObsEq (s.setFrame rx fv n) (t.setFrame rx fv n) :=
  { h with rx := rfl, fv := rfl, len := rfl, mem := hmem }

/-- Writing U_POS hides U_HB at 0, and elsewhere shows a U_HB that the two states must share. -/
theorem ObsEq.setUPos {s t : State} (h : ObsEq s t) {p : BitVec 3} (hhb : p ≠ 0 → s.uHb = t.uHb) :
    ObsEq (s.setUPos p) (t.setUPos p) := { h with uPos := rfl, uHb := hhb }

theorem ObsEq.setUHb {s t : State} (h : ObsEq s t) (b : Byte) : ObsEq (s.setUHb b) (t.setUHb b) :=
  { h with uHb := fun _ => rfl }

/-- Writing P_CNT shows the entries of P_BUF below it, which the two states must share. -/
theorem ObsEq.setPCnt {s t : State} (h : ObsEq s t) {n : BitVec 3}
    (hbuf : ∀ j (hj : j < 6), j < n.toNat → s.pBuf[j] = t.pBuf[j]) : ObsEq (s.setPCnt n) (t.setPCnt n) :=
  { h with pCnt := rfl, pBuf := hbuf }

/-- No entry of P_BUF lies below a P_CNT of 0. -/
theorem ObsEq.clearPCnt {s t : State} (h : ObsEq s t) : ObsEq (s.setPCnt 0) (t.setPCnt 0) :=
  h.setPCnt fun j _ hj => absurd hj (Nat.not_lt_zero j)

theorem ObsEq.setPBuf {s t : State} (h : ObsEq s t) (k : Nat) (b : Byte) : ObsEq (s.setPBuf k b) (t.setPBuf k b) :=
  { h with
    pBuf := fun j hj hlt => by
      simp only [State.setPBuf_pBuf, Vector.getElem_setIfInBounds]
      rw [h.pBuf j hj hlt] }

theorem ObsEq.resetUnits {s t : State} (h : ObsEq s t) : ObsEq s.resetUnits t.resetUnits :=
  { h with
    rx := rfl
    fv := rfl
    len := rfl
    mem := fun i hi => absurd hi (Nat.not_lt_zero i)
    uPos := rfl
    uHb := fun hne => absurd rfl hne
    pCnt := rfl
    pBuf := fun j _ hj => absurd hj (Nat.not_lt_zero j)
    lastErr := rfl }

/-! ### What is read of MEM and P_BUF -/

theorem ObsEq.memBytes {s t : State} (h : ObsEq s t) : memBytes s.mem s.len = memBytes t.mem t.len := by
  rw [← h.len]
  exact memBytes_congr h.mem

theorem ObsEq.heldBytes {s t : State} (h : ObsEq s t) : s.heldBytes = t.heldBytes := by
  unfold State.heldBytes
  rw [← h.pCnt]
  refine List.ext_getElem (by simp) fun j hs _ => ?_
  obtain ⟨hcnt, hsix⟩ : j < s.pCnt.toNat ∧ j < 6 := by simpa using hs
  simpa using h.pBuf j hsix hcnt

/-- A full P_BUF is read whole (R192). -/
theorem ObsEq.pBuf_of_full {s t : State} (h : ObsEq s t) (hfull : 6 ≤ s.pCnt.toNat) : s.pBuf = t.pBuf :=
  Vector.ext fun j hj => h.pBuf j hj (Nat.lt_of_lt_of_le hj hfull)

/-! ### The frame assembler's updates -/

theorem ObsEq.startFrame {s t : State} (h : ObsEq s t) (b : Byte) : ObsEq (startFrame s b) (startFrame t b) :=
  (h.store 0 b).setFrame true false fun i hi => by
    obtain rfl : i = 0 := Nat.lt_one_iff.mp hi
    simp

/-- The byte written at LEN is the one more that LEN + 1 shows. -/
theorem ObsEq.memRead_store_len {s t : State} (h : ObsEq s t) (b : Byte) (i : Nat) (hi : i < s.len + 1) :
    memRead (s.store s.len b).mem i = memRead (t.store s.len b).mem i := by
  rw [State.store_mem, State.store_mem, memRead_memWrite, memRead_memWrite]
  by_cases hend : i = s.len
  · rw [if_pos hend, if_pos hend]
  · rw [if_neg hend, if_neg hend, h.mem i (by omega)]

theorem ObsEq.appendByte {s t : State} (h : ObsEq s t) (b : Byte) : ObsEq (appendByte s b) (appendByte t b) := by
  unfold Machine.appendByte
  rw [← h.len, ← h.rx, ← h.fv]
  exact (h.store s.len b).setFrame s.rx s.fv (h.memRead_store_len b)

theorem ObsEq.completeFrame {s t : State} (h : ObsEq s t) (b : Byte) :
    ObsEq (completeFrame s b) (completeFrame t b) := by
  unfold Machine.completeFrame
  rw [← h.len]
  exact (h.store s.len b).setFrame false true (h.memRead_store_len b)

theorem ObsEq.abortFrame {s t : State} (h : ObsEq s t) (c : ErrCode) : ObsEq (abortFrame s c) (abortFrame t c) := by
  unfold Machine.abortFrame
  rw [← h.fv]
  exact (h.raise c).setFrame false s.fv fun i hi => absurd hi (Nat.not_lt_zero i)

/-! ### The commands and the step -/

/-- Both outcomes are next states, and those agree on what can be observed. -/
def ObsEqNext (o o' : Host.Outcome State Fault Refusal) : Prop :=
  ∃ s t, o = .next s ∧ o' = .next t ∧ ObsEq s t

theorem ObsEq.next {s t : State} (h : ObsEq s t) : ObsEqNext (.next s) (.next t) := ⟨s, t, rfl, rfl, h⟩

/-- Two branches on conditions that agree. -/
theorem ObsEqNext.ite {p q : Prop} [Decidable p] [Decidable q] {a a' b b' : Host.Outcome State Fault Refusal}
    (hpq : p ↔ q) (hpos : p → ObsEqNext a a') (hneg : ¬ p → ObsEqNext b b') :
    ObsEqNext (if p then a else b) (if q then a' else b') := by
  by_cases hp : p
  · rw [if_pos hp, if_pos (hpq.mp hp)]; exact hpos hp
  · rw [if_neg hp, if_neg (mt hpq.mpr hp)]; exact hneg hp

theorem ObsEq.hasRoom_iff {s t : State} (h : ObsEq s t) :
    hasRoom s.config s.len = true ↔ hasRoom t.config t.len = true := by rw [h.config, h.len]

theorem ObsEq.execFeedEox {s t : State} (h : ObsEq s t) : ObsEqNext (execFeedEox s) (execFeedEox t) :=
  .ite (by rw [h.rx])
    (fun _ => .ite h.hasRoom_iff (fun _ => (h.completeFrame _).next) fun _ => (h.abortFrame _).next) fun _ => h.next

theorem ObsEq.execFeedData {s t : State} (h : ObsEq s t) (b : Byte) : ObsEqNext (execFeedData b s) (execFeedData b t) :=
  .ite (by rw [h.rx])
    (fun _ => .ite h.hasRoom_iff (fun _ => (h.appendByte b).next) fun _ => (h.abortFrame _).next) fun _ => h.next

theorem ObsEq.execFeedStatus {s t : State} (h : ObsEq s t) (b : Byte) :
    ObsEqNext (execFeedStatus b s) (execFeedStatus b t) :=
  .ite (by rw [h.rx]) (fun _ => (h.abortFrame _).next) fun _ => h.next

theorem ObsEq.execTake {s t : State} (h : ObsEq s t) : ObsEqNext (execTake s) (execTake t) := by
  refine .ite (by rw [h.fv]) (fun _ => ObsEq.next ?_) fun _ => (h.emit _).next
  rw [← h.memBytes, ← h.rx]
  exact (h.emit _).setFrame s.rx false fun i hi => absurd hi (Nat.not_lt_zero i)

theorem ObsEq.execUbyte {s t : State} (h : ObsEq s t) (b : Byte) : ObsEqNext (execUbyte b s) (execUbyte b t) := by
  refine .ite (by rw [h.uPos]) (fun _ => ((h.setUHb b).setUPos fun _ => rfl).next) fun hpos => ObsEq.next ?_
  rw [← h.uHb hpos, ← h.uPos]
  exact (h.emit _).setUPos fun _ => h.uHb hpos

theorem ObsEq.execPbyte {s t : State} (h : ObsEq s t) (b : Byte) : ObsEqNext (execPbyte b s) (execPbyte b t) := by
  refine .ite (by rw [h.pCnt]) (fun hlt => ObsEq.next ?_) fun hfull => ObsEq.next ?_
  · rw [← h.pCnt]
    refine (h.setPBuf _ b).setPCnt fun j hj hjcnt => ?_
    have hle : j = s.pCnt.toNat ∨ j < s.pCnt.toNat := by bv_omega
    simp only [State.setPBuf_pBuf, Vector.getElem_setIfInBounds]
    obtain rfl | hlow := hle
    · simp
    · rw [h.pBuf j hj hlow]
  · rw [← h.pBuf_of_full (Nat.not_lt.mp hfull)]
    exact (h.emit _).clearPCnt

theorem ObsEq.execPflush {s t : State} (h : ObsEq s t) : ObsEqNext (execPflush s) (execPflush t) := by
  refine .ite (by rw [h.pCnt]) (fun _ => h.next) fun _ => ObsEq.next ?_
  rw [← h.heldBytes]
  exact (h.emit _).clearPCnt

theorem ObsEq.exec {s t : State} (h : ObsEq s t) (i : Instr) : ObsEqNext (exec i s) (exec i t) := by
  cases i with
  | nop => exact h.next
  | feedSox => exact (h.startFrame soxByte).next
  | feedEox => exact h.execFeedEox
  | feedData b => exact h.execFeedData b
  | feedStatus b => exact h.execFeedStatus b
  | take => exact h.execTake
  | reset => exact h.resetUnits.next
  | ustart => exact (h.setUPos fun hne => absurd rfl hne).next
  | ubyte b => exact h.execUbyte b
  | pstart => exact h.clearPCnt.next
  | pbyte b => exact h.execPbyte b
  | pflush => exact h.execPflush
  | extract b lo hi => exact (h.emit _).next

theorem ObsEq.step {s t : State} (h : ObsEq s t) : ObsEqNext (step s) (step t) := by
  cases hport : s.port with
  | nil =>
    rw [step_idle hport, step_idle (h.port.symm.trans hport)]
    exact h.next
  | cons input rest =>
    have hrest := h.setPort rest
    cases input with
    | rst =>
      rw [step_rst hport, step_rst (h.port.symm.trans hport)]
      exact hrest.resetUnits.next
    | word w =>
      rw [step_word hport, step_word (h.port.symm.trans hport), stepWord, stepWord]
      cases decode w with
      | error why => exact (hrest.raise _).next
      | ok i => exact hrest.exec i

/-! ### The outputs -/

theorem ObsEq.status {s t : State} (h : ObsEq s t) : s.status = t.status := by
  rw [State.status, State.status, h.rx, h.fv, h.lastErr, h.uPos, h.pCnt]

theorem ObsEq.observe {s t : State} (h : ObsEq s t) : s.observe = t.observe := by
  rw [State.observe, State.observe, State.lenOut, State.lenOut, h.status, h.len, h.out]

/-- The read port reads MEM below LEN only, whatever it draws elsewhere (R43). -/
theorem ObsEq.rdData {s t : State} (h : ObsEq s t) (addr : Nat) (draw : Byte) :
    s.rdData addr draw = t.rdData addr draw := by
  by_cases hheld : s.fv = true ∧ addr < s.len
  · rw [rdData_of_held hheld, rdData_of_held (h.fv ▸ h.len ▸ hheld), h.mem addr hheld.2]
  · rw [rdData_of_not_held hheld, rdData_of_not_held (h.fv ▸ h.len ▸ hheld)]

/-- Settles O21: no output and no step reads MEM from LEN on, U_HB at position 0 or P_BUF from P_CNT on. -/
theorem unobservableValuesStayUnobservable : Obligations.UnobservableValuesStayUnobservable := fun _ _ h =>
  ⟨h.observe, h.rdData, h.step⟩

end Sys2Proof.Machine
end

section
/-! PROOF. The decoder after the encoder (R112, R113): the word of a well-formed command decodes to that command. -/

namespace Sys2Proof

theorem opOfCode_code (op : Op) : opOfCode op.code = some op := by
  cases op <;> rfl

theorem and_statusMask_ne_zero_of_status {b : Byte} (h : (Instr.feedStatus b).wellFormed = true) :
    b &&& statusMask ≠ 0 := by
  simp only [Instr.wellFormed, Bool.and_eq_true, decide_eq_true_eq] at h
  obtain ⟨⟨hmask, -⟩, -⟩ := h
  exact hmask

theorem feedInstr_of_data {b : Byte} (h : (Instr.feedData b).wellFormed = true) : feedInstr b = .feedData b := by
  have hmask : b &&& statusMask = 0 := of_decide_eq_true h
  obtain ⟨rfl, -⟩ | ⟨rfl, -⟩ | ⟨-, -, hstatus⟩ | ⟨-, hi, -⟩ := feedInstr_cases b
  · exact absurd hmask (by decide)
  · exact absurd hmask (by decide)
  · exact absurd hmask (and_statusMask_ne_zero_of_status hstatus)
  · exact hi

theorem feedInstr_of_status {b : Byte} (h : (Instr.feedStatus b).wellFormed = true) : feedInstr b = .feedStatus b := by
  obtain ⟨rfl, -⟩ | ⟨rfl, -⟩ | ⟨-, hi, -⟩ | ⟨-, -, hdata⟩ := feedInstr_cases b
  · exact absurd h (by decide)
  · exact absurd h (by decide)
  · exact hi
  · exact absurd (of_decide_eq_true hdata) (and_statusMask_ne_zero_of_status h)

/-- The case on OP, given a well-formed command's own fields, answers the command (R104, R105). -/
theorem decodeOp_fields {i : Instr} (h : i.wellFormed = true) :
    decodeOp i.op i.fromBound i.toBound i.data = .ok i := by
  cases i with
  | feedData b => exact congrArg Except.ok (feedInstr_of_data h)
  | feedStatus b => exact congrArg Except.ok (feedInstr_of_status h)
  | extract b lo hi =>
    have hb : lo.toNat < hi.toNat ∧ hi.toNat ≤ 8 := by simpa [Instr.wellFormed] using h
    exact if_pos hb
  | _ => rfl

/-- TO and FROM are 0 in the word of every command but EXTRACT (R108). -/
theorem bounds_eq_zero_of_code_ne {i : Instr} (h : i.op.code ≠ 0x9) : i.toBound = 0 ∧ i.fromBound = 0 := by
  cases i with
  | extract => exact absurd rfl h
  | _ => exact ⟨rfl, rfl⟩

theorem decode_encode {i : Instr} (h : i.wellFormed = true) : decode (encode i) = .ok i := by
  obtain ⟨hop, hrsv⟩ := Laws.opField_encode i
  have hto : toField (encode i) = i.toBound := toField_joinFields ..
  have hfrom : fromField (encode i) = i.fromBound := fromField_joinFields ..
  have hdata : dataField (encode i) = i.data := dataField_joinFields ..
  have hbounds : ¬ (i.op.code ≠ 0x9 ∧ (i.toBound ≠ 0 ∨ i.fromBound ≠ 0)) := by
    rintro ⟨hcode, hne⟩
    obtain ⟨hto0, hfrom0⟩ := bounds_eq_zero_of_code_ne hcode
    exact hne.elim (absurd hto0) (absurd hfrom0)
  rw [decode, if_neg (not_not.mpr hrsv), hop, hto, hfrom, hdata, if_neg hbounds, opOfCode_code]
  exact decodeOp_fields h

end Sys2Proof
end

section
/-! PROOF. Each command reads and writes the registers of its own unit only (R80). From this, what the port still holds does
not bear on a command, and commands of different units may be exchanged. -/

namespace Sys2Proof.Machine

/-! ### A unit's part of the state -/

/-- `r` with the part of unit `u` taken from `s`. MAX_FRAME_LEN and LAST_ERR go with the frame assembler: of the four units
no other reads the one or writes the other. -/
def copyUnit (u : FunctionalUnit) (s r : State) : State :=
  match u with
  | .assembler =>
    { r with config := s.config, rx := s.rx, fv := s.fv, len := s.len, mem := s.mem, lastErr := s.lastErr }
  | .unpacker => { r with uPos := s.uPos, uHb := s.uHb }
  | .packer => { r with pCnt := s.pCnt, pBuf := s.pBuf }
  | .extractor => r

@[simp] theorem copyUnit_self (u : FunctionalUnit) (s : State) : copyUnit u s s = s := by
  cases u <;> rfl

@[simp] theorem copyUnit_out (u : FunctionalUnit) (s r : State) : (copyUnit u s r).out = r.out := by
  cases u <;> rfl

theorem copyUnit_emit (u : FunctionalUnit) (s r : State) (evs : List Event) :
    copyUnit u s (r.emit evs) = (copyUnit u s r).emit evs := by
  cases u <;> rfl

theorem copyUnit_setPort (u : FunctionalUnit) (s r : State) (p : List PortInput) :
    copyUnit u s (r.setPort p) = (copyUnit u s r).setPort p := by
  cases u <;> rfl

/-- The parts of two units do not overlap. -/
theorem copyUnit_comm {u v : FunctionalUnit} (huv : u ≠ v) (s t r : State) :
    copyUnit u s (copyUnit v t r) = copyUnit v t (copyUnit u s r) := by
  cases u with
  | assembler =>
    cases v with
    | assembler => exact absurd rfl huv
    | _ => rfl
  | unpacker =>
    cases v with
    | unpacker => exact absurd rfl huv
    | _ => rfl
  | packer =>
    cases v with
    | packer => exact absurd rfl huv
    | _ => rfl
  | extractor => rfl

/-! ### Local meanings -/

/-- Run on any state that has unit `u`'s part from `s`, the meaning `f` completes, writes one and the same part of `u`, emits
one and the same events, and leaves the rest of the state as it is. -/
def LocalAt (u : FunctionalUnit) (s : State) (f : State → Host.Outcome State Fault Refusal) : Prop :=
  ∃ (t : State) (evs : List Event), ∀ r, f (copyUnit u s r) = .next ((copyUnit u t r).emit evs)

/-- A local update with the part `t` that it writes and the events `evs` that it emits. -/
theorem LocalAt.emits {u : FunctionalUnit} {s : State} {f : State → State} (t : State) (evs : List Event)
    (h : ∀ r, f (copyUnit u s r) = (copyUnit u t r).emit evs) : LocalAt u s fun x => .next (f x) :=
  ⟨t, evs, fun r => congrArg _ (h r)⟩

/-- A local update without events. -/
theorem LocalAt.silent {u : FunctionalUnit} {s : State} {f : State → State}
    (h : ∀ r, f (copyUnit u s r) = copyUnit u (f s) r) : LocalAt u s fun x => .next (f x) :=
  .emits (f s) [] fun r => (h r).trans (State.emit_nil _).symm

theorem LocalAt.skip {u : FunctionalUnit} {s : State} : LocalAt u s .next := .silent (f := id) fun _ => rfl

/-- A choice between two local meanings, by a condition on the unit's own part. -/
theorem LocalAt.ite {u : FunctionalUnit} {s : State} {c : State → Prop} [DecidablePred c]
    {f g : State → Host.Outcome State Fault Refusal} (hc : ∀ r, c (copyUnit u s r) ↔ c s) (hf : LocalAt u s f)
    (hg : LocalAt u s g) : LocalAt u s fun x => if c x then f x else g x := by
  by_cases hcs : c s
  · obtain ⟨t, evs, hf⟩ := hf
    exact ⟨t, evs, fun r => (if_pos ((hc r).mpr hcs)).trans (hf r)⟩
  · obtain ⟨t, evs, hg⟩ := hg
    exact ⟨t, evs, fun r => (if_neg (mt (hc r).mp hcs)).trans (hg r)⟩

/-! ### The units' commands -/

theorem localAt_abortFrame (s : State) (c : ErrCode) : LocalAt .assembler s fun x => .next (abortFrame x c) :=
  .emits (abortFrame s c) [.err c] fun _ => rfl

theorem localAt_execFeedEox (s : State) : LocalAt .assembler s execFeedEox :=
  .ite (c := fun x => x.rx = true) (fun _ => .rfl)
    (.ite (c := fun x => hasRoom x.config x.len = true) (fun _ => .rfl) (.silent fun _ => rfl) (localAt_abortFrame s _))
    .skip

theorem localAt_execFeedData (b : Byte) (s : State) : LocalAt .assembler s (execFeedData b) :=
  .ite (c := fun x => x.rx = true) (fun _ => .rfl)
    (.ite (c := fun x => hasRoom x.config x.len = true) (fun _ => .rfl) (.silent fun _ => rfl) (localAt_abortFrame s _))
    .skip

theorem localAt_execFeedStatus (b : Byte) (s : State) : LocalAt .assembler s (execFeedStatus b) :=
  .ite (c := fun x => x.rx = true) (fun _ => .rfl) (localAt_abortFrame s _) .skip

theorem localAt_execTake (s : State) : LocalAt .assembler s execTake :=
  .ite (c := fun x => x.fv = true) (fun _ => .rfl)
    (.emits (takeFrame s) [.frame (some (memBytes s.mem s.len))] fun _ => rfl) (.emits s [.frame none] fun _ => rfl)

theorem localAt_execUbyte (b : Byte) (s : State) : LocalAt .unpacker s (execUbyte b) :=
  .ite (c := fun x => x.uPos = 0) (fun _ => .rfl) (.silent fun _ => rfl)
    (.emits (s.setUPos (s.uPos + 1)) [.uout (unpackByte s.uHb s.uPos.toNat b)] fun _ => rfl)

theorem localAt_execPbyte (b : Byte) (s : State) : LocalAt .packer s (execPbyte b) :=
  .ite (c := fun x => x.pCnt.toNat < 6) (fun _ => .rfl) (.silent fun _ => rfl)
    (.emits (s.setPCnt 0) ((packGroup (s.pBuf.toList ++ [b])).map .pout) fun _ => rfl)

theorem localAt_execPflush (s : State) : LocalAt .packer s execPflush :=
  .ite (c := fun x => x.pCnt = 0) (fun _ => .rfl) .skip
    (.emits (s.setPCnt 0) ((packGroup s.heldBytes).map .pout) fun _ => rfl)

/-- Every command of a unit is local to it. -/
theorem localAt_exec {i : Instr} {u : FunctionalUnit} (h : unitOf i = some u) (s : State) : LocalAt u s (exec i) := by
  cases i with
  | nop => cases h
  | reset => cases h
  | feedSox => cases h; exact .silent fun _ => rfl
  | feedEox => cases h; exact localAt_execFeedEox s
  | feedData b => cases h; exact localAt_execFeedData b s
  | feedStatus b => cases h; exact localAt_execFeedStatus b s
  | take => cases h; exact localAt_execTake s
  | ustart => cases h; exact .silent fun _ => rfl
  | ubyte b => cases h; exact localAt_execUbyte b s
  | pstart => cases h; exact .silent fun _ => rfl
  | pbyte b => cases h; exact localAt_execPbyte b s
  | pflush => cases h; exact localAt_execPflush s
  | extract b lo hi => cases h; exact .emits s [.xout (extractField b lo hi)] fun _ => rfl

/-! ### Runs -/

theorem execAll_cons_of_next {i : Instr} {s t : State} (h : exec i s = .next t) (is : List Instr) :
    execAll (i :: is) s = execAll is t := by
  rw [execAll, h]

theorem runSteps_succ_of_next {s t : State} (h : step s = .next t) (n : Nat) : runSteps (n + 1) s = runSteps n t := by
  rw [runSteps, h]

/-- No command reads or writes what the host has still to present (R31). -/
theorem exec_setPort (i : Instr) (s : State) : ∃ t : State, ∀ p, exec i (s.setPort p) = .next (t.setPort p) := by
  cases hu : unitOf i with
  | some u =>
    obtain ⟨t, evs, hexec⟩ := localAt_exec hu s
    refine ⟨(copyUnit u t s).emit evs, fun p => ?_⟩
    have hrun := hexec (s.setPort p)
    rw [copyUnit_setPort, copyUnit_setPort, copyUnit_self] at hrun
    exact hrun
  | none =>
    cases i with
    | nop => exact ⟨s, fun _ => rfl⟩
    | reset => exact ⟨s.resetUnits, fun _ => rfl⟩
    | _ => cases hu

/-- A step that finds a well-formed command's word on the port runs the command, the word consumed (R262). -/
theorem step_encode {i : Instr} (hwf : i.wellFormed = true) (s : State) (p : List PortInput) :
    step (s.setPort (.word (encode i) :: p)) = exec i (s.setPort p) := by
  rw [step_word rfl, stepWord, decode_encode hwf]
  rfl

/-- Settles O14: by induction on the commands; the words still on the port do not bear on the one that runs. -/
theorem portRunsCommandsInOrder : Obligations.PortRunsCommandsInOrder := by
  intro is s rest hwf
  induction is generalizing s with
  | nil => rfl
  | cons i is ih =>
    obtain ⟨hi, his⟩ := List.forall_mem_cons.mp hwf
    obtain ⟨t, hexec⟩ := exec_setPort i s
    have hstep := (step_encode hi s (is.map (fun j => .word (encode j)) ++ rest)).trans (hexec _)
    exact ((runSteps_succ_of_next hstep is.length).trans (ih t his)).trans (execAll_cons_of_next (hexec rest) is).symm

/-! ### Exchanging commands of different units -/

/-- A command of another unit runs after an update of `u` as it does alone: its own part is as it was. -/
theorem exec_after_other_unit {j : Instr} {u v : FunctionalUnit} {s tj : State} {ej : List Event} (huv : u ≠ v)
    (hexec : ∀ r, exec j (copyUnit v s r) = .next ((copyUnit v tj r).emit ej)) (ti : State) (ei : List Event) :
    exec j ((copyUnit u ti s).emit ei) = .next ((copyUnit v tj ((copyUnit u ti s).emit ei)).emit ej) := by
  have hrun := hexec ((copyUnit u ti s).emit ei)
  rwa [copyUnit_emit, copyUnit_comm huv.symm, copyUnit_self] at hrun

theorem emits_copyUnit (u : FunctionalUnit) (t s : State) (evs : List Event) :
    Emits s ((copyUnit u t s).emit evs) evs := by
  rw [Emits, State.emit_out, copyUnit_out]

/-- The events of two runs, one after the other (R263). -/
theorem Emits.append {s t r : State} {evs evs' : List Event} (h : Emits s t evs) (h' : Emits t r evs') :
    r.out = s.out ++ evs ++ evs' := by
  rw [h', h]

/-- Settles O56: each command leaves the other's unit as it was, and the parts that they write do not overlap. -/
theorem unitsAreIndependent : Obligations.UnitsAreIndependent := by
  intro i j u v s hi hj huv
  obtain ⟨ti, ei, hexeci⟩ := localAt_exec hi s
  obtain ⟨tj, ej, hexecj⟩ := localAt_exec hj s
  have halonei := hexeci s
  have halonej := hexecj s
  rw [copyUnit_self] at halonei halonej
  have hafterj := exec_after_other_unit huv hexecj ti ei
  have hafteri := exec_after_other_unit huv.symm hexeci tj ej
  have hemiti := emits_copyUnit u ti s ei
  have hemitj := emits_copyUnit v tj s ej
  have hemitj' := emits_copyUnit v tj ((copyUnit u ti s).emit ei) ej
  have hemiti' := emits_copyUnit u ti ((copyUnit v tj s).emit ej) ei
  have hrunij := (execAll_cons_of_next halonei [j]).trans (execAll_cons_of_next hafterj [])
  have hrunji := (execAll_cons_of_next halonej [i]).trans (execAll_cons_of_next hafteri [])
  refine ⟨_, _, _, _, ei, ej, halonei, hemiti, halonej, hemitj, hafterj, hemitj', hafteri, hemiti',
    hrunij, hemiti.append hemitj', hrunji, hemitj.append hemiti', ?_⟩
  rw [copyUnit_emit, copyUnit_emit, copyUnit_comm huv]
  rfl

end Sys2Proof.Machine
end

section
/-! PROOF. TAKE twice (R76, R230). -/

namespace Sys2Proof.Machine

/-- With no frame held, TAKE emits None and does nothing else. -/
theorem exec_take_of_not_held {s : State} (h : s.fv = false) : exec .take s = .next (s.emit [.frame none]) := by
  obtain ⟨hheld, -⟩ | ⟨-, he⟩ := exec_take_cases s
  · cases h.symm.trans hheld
  · exact he

/-- Settles O32: the first TAKE leaves no frame held. -/
theorem secondTakeReturnsNone : Obligations.SecondTakeReturnsNone := fun s => by
  obtain ⟨t, ht, -⟩ := exec_effect .take s
  exact ⟨t, ht, exec_take_of_not_held (fv_of_exec_take ht)⟩

end Sys2Proof.Machine
end

section
/-! PROOF. The input byte classes of FEED: their conditions, their sizes and the real-time bytes (R105, R106); and the spec's
encoding examples (R115). -/

namespace Sys2Proof

/-- Bit 7 is clear exactly below 0x80 (R17). -/
theorem and_statusMask_eq_zero_iff (b : Byte) : b &&& statusMask = 0 ↔ b.toNat < 0x80 := by
  refine ⟨toNat_lt_of_and_statusMask, fun h => ?_⟩
  have hbit : b.getLsbD 7 = false := Nat.testBit_lt_two_pow h
  ext i hi
  interval_cases i <;> simp [← BitVec.getLsbD_eq_getElem, hbit]

theorem and_statusMask_ne_zero_iff (b : Byte) : b &&& statusMask ≠ 0 ↔ 0x80 ≤ b.toNat :=
  (not_congr (and_statusMask_eq_zero_iff b)).trans Nat.not_lt

/-- Masking with STATUS_MASK leaves 0 or STATUS_MASK itself. -/
theorem and_statusMask_eq_self_iff (b : Byte) : b &&& statusMask = statusMask ↔ b &&& statusMask ≠ 0 := by
  constructor
  · intro h
    rw [h]
    decide
  · intro h
    rw [and_statusMask_ne_zero_iff] at h
    have hmsb : b.msb = true := BitVec.msb_eq_true_iff_two_mul_ge.mpr (by omega)
    have hbit : b.getLsbD 7 = true := (BitVec.msb_eq_getLsbD_last b).symm.trans hmsb
    ext i hi
    interval_cases i <;> simp [← BitVec.getLsbD_eq_getElem, hbit]

theorem wellFormed_feedStatus_iff (b : Byte) :
    (Instr.feedStatus b).wellFormed = true ↔ b &&& statusMask ≠ 0 ∧ b ≠ soxByte ∧ b ≠ eoxByte := by
  simp only [Instr.wellFormed, Bool.and_eq_true, decide_eq_true_eq, and_assoc]

/-- The condition of each class (R105). -/
theorem classify_eq_iff (b : Byte) :
    (classify b = .sox ↔ b = soxByte) ∧ (classify b = .eox ↔ b = eoxByte) ∧
    (classify b = .status ↔ b &&& statusMask ≠ 0 ∧ b ≠ soxByte ∧ b ≠ eoxByte) ∧
    (classify b = .data ↔ b.toNat < 0x80) := by
  obtain ⟨rfl, -⟩ | ⟨rfl, -⟩ | ⟨hclass, -, hwf⟩ | ⟨hclass, -, hwf⟩ := feedInstr_cases b
  · decide
  · decide
  · obtain ⟨hmask, hsox, heox⟩ := (wellFormed_feedStatus_iff b).mp hwf
    have hdata : ¬ b.toNat < 0x80 := Nat.not_lt.mpr ((and_statusMask_ne_zero_iff b).mp hmask)
    rw [hclass]
    exact ⟨iff_of_false nofun hsox, iff_of_false nofun heox, iff_of_true rfl ⟨hmask, hsox, heox⟩, iff_of_false nofun hdata⟩
  · have hmask : b &&& statusMask = 0 := of_decide_eq_true hwf
    have hsox : b ≠ soxByte := by rintro rfl; exact absurd hmask (by decide)
    have heox : b ≠ eoxByte := by rintro rfl; exact absurd hmask (by decide)
    rw [hclass]
    exact ⟨iff_of_false nofun hsox, iff_of_false nofun heox, iff_of_false nofun fun ⟨hne, _⟩ => hne hmask,
      iff_of_true rfl ((and_statusMask_eq_zero_iff b).mp hmask)⟩

/-- The STATUS class by value: 0x80 and above, but for the two frame bytes (R105, R106). -/
theorem classify_eq_status_iff_toNat (b : Byte) :
    classify b = .status ↔ 0x80 ≤ b.toNat ∧ b.toNat ≠ 0xF0 ∧ b.toNat ≠ 0xF7 := by
  obtain ⟨-, -, hstatus, -⟩ := classify_eq_iff b
  rw [hstatus, and_statusMask_ne_zero_iff, Ne, Ne, ← BitVec.toNat_inj, ← BitVec.toNat_inj]
  rfl

theorem classify_ofNat_status {k : Nat} (hlo : 0x80 ≤ k) (hhi : k < 256) (hsox : k ≠ 0xF0) (heox : k ≠ 0xF7) :
    classify (BitVec.ofNat 8 k) = .status := by
  rw [classify_eq_status_iff_toNat, BitVec.toNat_ofNat, Nat.mod_eq_of_lt hhi]
  exact ⟨hlo, hsox, heox⟩

theorem classify_ofNat_data {k : Nat} (hk : k < 0x80) : classify (BitVec.ofNat 8 k) = .data := by
  obtain ⟨-, -, -, hdata⟩ := classify_eq_iff (BitVec.ofNat 8 k)
  rw [hdata, BitVec.toNat_ofNat]
  omega

/-- A run of byte values that are all of one class. -/
theorem map_classify_range' {c : ByteClass} {start n : Nat}
    (h : ∀ k, start ≤ k → k < start + n → classify (BitVec.ofNat 8 k) = c) :
    (List.range' start n).map (fun k => classify (BitVec.ofNat 8 k)) = List.replicate n c := by
  refine List.eq_replicate_iff.mpr ⟨by simp, fun x hx => ?_⟩
  obtain ⟨k, hk, rfl⟩ := List.mem_map.mp hx
  obtain ⟨hlo, hhi⟩ := List.mem_range'_1.mp hk
  exact h k hlo hhi

/-- The three runs of status bytes: below SOX, between SOX and EOX, and above EOX (R106). -/
theorem map_classify_range'_status {start n : Nat}
    (h : 0x80 ≤ start ∧ start + n ≤ 0xF0 ∨ 0xF0 < start ∧ start + n ≤ 0xF7 ∨ 0xF7 < start ∧ start + n ≤ 256) :
    (List.range' start n).map (fun k => classify (BitVec.ofNat 8 k)) = List.replicate n .status :=
  map_classify_range' fun _ _ _ => classify_ofNat_status (by omega) (by omega) (by omega) (by omega)

/-- The class of every byte, in the order of the byte values: the data bytes, then the status bytes around SOX and EOX
(R105). -/
theorem map_classify_range :
    (List.range 256).map (fun k => classify (BitVec.ofNat 8 k)) =
      List.replicate 128 .data ++ (List.replicate 112 .status ++ (List.replicate 1 .sox ++
        (List.replicate 6 .status ++ (List.replicate 1 .eox ++ List.replicate 8 .status)))) := by
  have hsplit : List.range 256 = List.range' 0 128 ++ (List.range' 128 112 ++ (List.range' 240 1 ++
      (List.range' 241 6 ++ (List.range' 247 1 ++ List.range' 248 8)))) := by
    rw [List.range'_append_1 (s := 247) (m := 1), List.range'_append_1 (s := 241) (m := 6),
      List.range'_append_1 (s := 240) (m := 1), List.range'_append_1 (s := 128) (m := 112),
      List.range'_append_1 (s := 0) (m := 128), List.range_eq_range']
  have hdata := map_classify_range' (start := 0) (n := 128) fun _ _ hk => classify_ofNat_data (by omega)
  simp only [hsplit, List.map_append]
  rw [hdata, map_classify_range'_status (start := 128) (by decide), map_classify_range'_status (start := 241) (by decide),
    map_classify_range'_status (start := 248) (by decide)]
  rfl

/-- Settles O5: the conditions by the class of the byte, the sizes by counting the classes of all bytes in order. -/
theorem byteClassesPartitionTheBytes : Obligations.ByteClassesPartitionTheBytes := by
  refine ⟨classify_eq_iff, ?_⟩
  rw [map_classify_range]
  simp only [List.count_append, List.count_replicate]
  decide

theorem encode_feedStatus (b : Byte) : encode (.feedStatus b) = 0x100000#24 ||| b.zeroExtend 24 := by
  simp [encode, joinFields, Instr.op, Op.code, Instr.toBound, Instr.fromBound, Instr.data]

/-- Settles O6: the ranges leave out SOX and EOX, and the FEED word of a status byte is the word of its command. -/
theorem realTimeBytesAreStatusBytes : Obligations.RealTimeBytesAreStatusBytes := fun b hb => by
  have hstatus : classify b = .status := (classify_eq_status_iff_toNat b).mpr (by omega)
  obtain ⟨-, -, hiff, -⟩ := classify_eq_iff b
  refine ⟨hstatus, ?_⟩
  rw [← encode_feedStatus]
  exact decode_encode ((wellFormed_feedStatus_iff b).mpr (hiff.mp hstatus))

/-- Settles O7: each example word, decoded. -/
theorem specEncodingExamples : Obligations.SpecEncodingExamples := by
  unfold Obligations.SpecEncodingExamples
  decide

end Sys2Proof
end

section
/-! PROOF. The command map of R107 against the decoder: a row's mask test, field by field, is passed by the words of the
row's commands and by no other. -/

namespace Sys2Proof

/-- A word is told by its five fields (R101). -/
theorem eq_joinFields_iff (w : CmdWord) (op to_ from_ rsv : Nibble) (d : Byte) :
    w = joinFields op to_ from_ rsv d ↔
      opField w = op ∧ toField w = to_ ∧ fromField w = from_ ∧ rsvField w = rsv ∧ dataField w = d := by
  constructor
  · rintro rfl
    exact ⟨opField_joinFields .., toField_joinFields .., fromField_joinFields .., rsvField_joinFields ..,
      dataField_joinFields ..⟩
  · rintro ⟨rfl, rfl, rfl, rfl, rfl⟩
    exact (joinFields_fields w).symm

/-- Masking a word masks each of its fields. -/
theorem fields_and (w v : CmdWord) :
    opField (w &&& v) = opField w &&& opField v ∧ toField (w &&& v) = toField w &&& toField v ∧
      fromField (w &&& v) = fromField w &&& fromField v ∧ rsvField (w &&& v) = rsvField w &&& rsvField v ∧
      dataField (w &&& v) = dataField w &&& dataField v := by
  simp only [opField, toField, fromField, rsvField, dataField, BitVec.extractLsb'_and, and_self]

/-- A mask test on a word is a mask test on each of its fields (R101, R107). -/
theorem and_joinFields_eq_iff (w : CmdWord) (mop mto mfrom mrsv op to_ from_ rsv : Nibble) (md d : Byte) :
    w &&& joinFields mop mto mfrom mrsv md = joinFields op to_ from_ rsv d ↔
      opField w &&& mop = op ∧ toField w &&& mto = to_ ∧ fromField w &&& mfrom = from_ ∧ rsvField w &&& mrsv = rsv ∧
        dataField w &&& md = d := by
  obtain ⟨hop, hto, hfrom, hrsv, hdata⟩ := fields_and w (joinFields mop mto mfrom mrsv md)
  rw [eq_joinFields_iff, hop, hto, hfrom, hrsv, hdata, opField_joinFields, toField_joinFields, fromField_joinFields,
    rsvField_joinFields, dataField_joinFields]

theorem nibble_and_ones (x : Nibble) : x &&& 0xF = x := BitVec.and_allOnes

/-- The word of a command, by its fields (R101). -/
theorem encode_eq_iff (i : Instr) (w : CmdWord) :
    encode i = w ↔ opField w = i.op.code ∧ toField w = i.toBound ∧ fromField w = i.fromBound ∧ rsvField w = 0 ∧
      dataField w = i.data :=
  eq_comm.trans (eq_joinFields_iff ..)

theorem decode_eq_ok_iff (w : CmdWord) (i : Instr) : decode w = .ok i ↔ encode i = w ∧ i.wellFormed = true := by
  refine ⟨encode_eq_of_decode, ?_⟩
  rintro ⟨rfl, hwf⟩
  exact decode_encode hwf

/-- The command of a row of R107, with the word's operands. -/
def Row.instr (r : Row) (w : CmdWord) : Instr :=
  match r with
  | .nop => .nop
  | .feedSox => .feedSox
  | .feedEox => .feedEox
  | .feedData => .feedData (dataField w)
  | .feedStatus => .feedStatus (dataField w)
  | .take => .take
  | .reset => .reset
  | .ustart => .ustart
  | .ubyte => .ubyte (dataField w)
  | .pstart => .pstart
  | .pbyte => .pbyte (dataField w)
  | .pflush => .pflush
  | .extract => .extract (dataField w) (fromField w) (toField w)

/-- `Row.instr` gives a command of its row. -/
theorem row_instr (r : Row) (w : CmdWord) : (r.instr w).row = r := by
  cases r <;> rfl

/-- From a command's own word, `Row.instr` gives the command back. -/
theorem instr_row_encode (i : Instr) : i.row.instr (encode i) = i := by
  have hdata : dataField (encode i) = i.data := dataField_joinFields ..
  have hfrom : fromField (encode i) = i.fromBound := fromField_joinFields ..
  have hto : toField (encode i) = i.toBound := toField_joinFields ..
  cases i with
  | extract => rw [Instr.row, Row.instr, hdata, hfrom, hto]; rfl
  | feedData => exact congrArg Instr.feedData hdata
  | feedStatus => exact congrArg Instr.feedStatus hdata
  | ubyte => exact congrArg Instr.ubyte hdata
  | pbyte => exact congrArg Instr.pbyte hdata
  | _ => rfl

/-- A word decodes to a command of a row exactly when it decodes to the row's command with the word's operands. -/
theorem exists_decode_row_iff (r : Row) (w : CmdWord) :
    (∃ i, decode w = .ok i ∧ i.row = r) ↔ decode w = .ok (r.instr w) := by
  constructor
  · rintro ⟨i, hi, rfl⟩
    obtain ⟨rfl, -⟩ := encode_eq_of_decode hi
    rw [instr_row_encode, hi]
  · exact fun h => ⟨_, h, row_instr r w⟩

/-- A row without operands is one word. -/
theorem matches_of_full_mask {r : Row} {w : CmdWord} {i : Instr} (hinstr : r.instr w = i) (hmask : r.mask = .allOnes 24)
    (hpattern : r.pattern = encode i) (hextra : r.extra w = i.wellFormed) :
    (w &&& r.mask = r.pattern ∧ r.extra w = true) ↔ decode w = .ok (r.instr w) := by
  rw [decode_eq_ok_iff, hinstr, hmask, hpattern, hextra, BitVec.and_allOnes, eq_comm]

/-- A row with a byte operand fixes every field but DATA, of which it may fix some bits. -/
theorem matches_of_data_mask {r : Row} {w : CmdWord} {op : Op} {m p : Byte}
    (hmask : r.mask = joinFields 0xF 0xF 0xF 0xF m) (hpattern : r.pattern = joinFields op.code 0 0 0 p)
    (hop : (r.instr w).op = op)
    (hfields : (r.instr w).toBound = 0 ∧ (r.instr w).fromBound = 0 ∧ (r.instr w).data = dataField w)
    (hextra : (dataField w &&& m = p ∧ r.extra w = true) ↔ (r.instr w).wellFormed = true) :
    (w &&& r.mask = r.pattern ∧ r.extra w = true) ↔ decode w = .ok (r.instr w) := by
  obtain ⟨hto, hfrom, hdata⟩ := hfields
  rw [decode_eq_ok_iff, encode_eq_iff, hmask, hpattern, and_joinFields_eq_iff, hop, hto, hfrom, hdata, ← hextra]
  simp only [nibble_and_ones]
  tauto

/-- EXTRACT's row fixes OP and RSV, and its extra condition is the condition on the bounds (R104). -/
theorem matches_extract (w : CmdWord) :
    (w &&& Row.mask .extract = Row.pattern .extract ∧ Row.extra .extract w = true) ↔
      decode w = .ok (Row.instr .extract w) := by
  have hmask : Row.mask .extract = joinFields 0xF 0 0 0xF 0 := by decide
  have hpattern : Row.pattern .extract = joinFields 0x9 0 0 0 0 := by decide
  have hextra : Row.extra .extract w = (Row.instr .extract w).wellFormed := rfl
  rw [decode_eq_ok_iff, encode_eq_iff, hmask, hpattern, and_joinFields_eq_iff, hextra, nibble_and_ones, nibble_and_ones]
  simp [Row.instr, Instr.op, Op.code, Instr.toBound, Instr.fromBound, Instr.data]

/-- R107's test of a row on a word is passed exactly when the word decodes to the row's command. -/
theorem matches_iff_decode (r : Row) (w : CmdWord) :
    (w &&& r.mask = r.pattern ∧ r.extra w = true) ↔ decode w = .ok (r.instr w) := by
  cases r with
  | feedData =>
    refine matches_of_data_mask (op := .feed) (m := statusMask) (p := 0) (by decide) (by decide) rfl ⟨rfl, rfl, rfl⟩ ?_
    simp [Row.extra, Row.instr, Instr.wellFormed]
  | feedStatus =>
    refine matches_of_data_mask (op := .feed) (m := statusMask) (p := statusMask) (by decide) (by decide) rfl
      ⟨rfl, rfl, rfl⟩ ?_
    rw [and_statusMask_eq_self_iff, Row.instr, wellFormed_feedStatus_iff]
    simp [Row.extra, dataField]
  | ubyte =>
    refine matches_of_data_mask (op := .ubyte) (m := 0) (p := 0) (by decide) (by decide) rfl ⟨rfl, rfl, rfl⟩ ?_
    exact iff_of_true ⟨BitVec.and_zero, rfl⟩ rfl
  | pbyte =>
    refine matches_of_data_mask (op := .pbyte) (m := 0) (p := 0) (by decide) (by decide) rfl ⟨rfl, rfl, rfl⟩ ?_
    exact iff_of_true ⟨BitVec.and_zero, rfl⟩ rfl
  | extract => exact matches_extract w
  | nop => exact matches_of_full_mask (i := .nop) rfl rfl (by decide) rfl
  | feedSox => exact matches_of_full_mask (i := .feedSox) rfl rfl (by decide) rfl
  | feedEox => exact matches_of_full_mask (i := .feedEox) rfl rfl (by decide) rfl
  | take => exact matches_of_full_mask (i := .take) rfl rfl (by decide) rfl
  | reset => exact matches_of_full_mask (i := .reset) rfl rfl (by decide) rfl
  | ustart => exact matches_of_full_mask (i := .ustart) rfl rfl (by decide) rfl
  | pstart => exact matches_of_full_mask (i := .pstart) rfl rfl (by decide) rfl
  | pflush => exact matches_of_full_mask (i := .pflush) rfl rfl (by decide) rfl

/-- Settles O3: the row's test is the decoder's, and a word that is not ILLEGAL has the row of its command. -/
theorem decoderFollowsCommandMap : Obligations.DecoderFollowsCommandMap := fun w => by
  have hrow (r : Row) : (w &&& r.mask = r.pattern ∧ r.extra w = true) ↔ ∃ i, decode w = .ok i ∧ i.row = r :=
    (matches_iff_decode r w).trans (exists_decode_row_iff r w).symm
  have hmatches (r : Row) : r.matchesWord w = false ↔ ¬ ∃ i, decode w = .ok i ∧ i.row = r := by
    rw [← hrow, Row.matchesWord, ← Bool.not_eq_true, Bool.and_eq_true, decide_eq_true_eq]
  refine ⟨hrow, ?_⟩
  simp only [hmatches]
  cases decode w with
  | ok i => exact iff_of_false nofun fun h => h i.row ⟨i, rfl, rfl⟩
  | error why => exact iff_of_true ⟨why, rfl⟩ nofun

end Sys2Proof
end

section
/-! PROOF. The ILLEGAL words (R108, R261). -/

namespace Sys2Proof

theorem noOperand_eq_error_iff (d : Byte) (i : Instr) : (∃ why, noOperand d i = .error why) ↔ d ≠ 0 := by
  unfold noOperand
  split <;> simp_all

theorem decodeExtract_eq_error_iff (d : Byte) (lo hi : Nibble) :
    (∃ why, decodeExtract d lo hi = .error why) ↔ ¬ (lo.toNat < hi.toNat ∧ hi.toNat ≤ 8) := by
  unfold decodeExtract
  split <;> simp_all

/-- The OP values without a byte operand (R102, R108 item 4). -/
abbrev noOperandCodes : List Nibble := [0x0#4, 0x2#4, 0x3#4, 0x4#4, 0x6#4, 0x8#4]

/-- Items 4 and 5 of R108, which the case on OP decides. -/
theorem decodeOp_eq_error_iff (op : Op) (lo hi : Nibble) (d : Byte) :
    (∃ why, decodeOp op lo hi d = .error why) ↔
      (op.code ∈ noOperandCodes ∧ d ≠ 0) ∨ (op.code = 0x9 ∧ ¬ (lo.toNat < hi.toNat ∧ hi.toNat ≤ 8)) := by
  cases op with
  | feed | ubyte | pbyte => exact iff_of_false nofun (by simp [Op.code])
  | extract => exact (decodeExtract_eq_error_iff d lo hi).trans (by simp [Op.code])
  | nop | take | reset | ustart | pstart | pflush => exact (noOperand_eq_error_iff d _).trans (by simp [Op.code])

theorem opOfCode_eq_none_iff (c : Nibble) : opOfCode c = none ↔ 0xA ≤ c.toNat := by
  revert c
  decide

/-- The five conditions of R108, in its order. -/
def IllegalCondition (w : CmdWord) : Prop :=
  0xA ≤ (opField w).toNat ∨ rsvField w ≠ 0 ∨
  (opField w ≠ 0x9 ∧ (toField w ≠ 0 ∨ fromField w ≠ 0)) ∨
  (opField w ∈ noOperandCodes ∧ dataField w ≠ 0) ∨
  (opField w = 0x9 ∧ ¬ ((fromField w).toNat < (toField w).toNat ∧ (toField w).toNat ≤ 8))

/-- R108's conditions are the error branches of the decoder: two checks before the case on OP, and what that case
answers. -/
theorem decode_eq_error_iff (w : CmdWord) : (∃ why, decode w = .error why) ↔ IllegalCondition w := by
  unfold IllegalCondition
  by_cases hrsv : rsvField w ≠ 0
  · rw [decode, if_pos hrsv]
    exact iff_of_true ⟨_, rfl⟩ (.inr (.inl hrsv))
  by_cases hbounds : opField w ≠ 0x9 ∧ (toField w ≠ 0 ∨ fromField w ≠ 0)
  · rw [decode, if_neg hrsv, if_pos hbounds]
    exact iff_of_true ⟨_, rfl⟩ (.inr (.inr (.inl hbounds)))
  rw [decode, if_neg hrsv, if_neg hbounds, ← opOfCode_eq_none_iff]
  cases hop : opOfCode (opField w) with
  | none => exact iff_of_true ⟨_, rfl⟩ (.inl rfl)
  | some op =>
    have hreserved : ¬ some op = none := nofun
    rw [or_iff_right hreserved, or_iff_right hrsv, or_iff_right hbounds, opOfCode_eq_some hop]
    exact decodeOp_eq_error_iff op _ _ _

end Sys2Proof

namespace Sys2Proof.Machine

/-- All that a step on an ILLEGAL word does (R261): ERR(3), LAST_ERR, and the word consumed. -/
theorem step_of_illegal {s : State} {w : CmdWord} {rest : List PortInput} (hport : s.port = .word w :: rest)
    {why : Illegal} (hdec : decode w = .error why) : step s = .next ((s.setPort rest).raise .illegalCmd) := by
  rw [step_word hport, stepWord, hdec]
  rfl

/-- Settles O4: the conditions by the branches of the decoder, the step by the rule of ILLEGAL words. -/
theorem illegalWordsAreTheFiveCases : Obligations.IllegalWordsAreTheFiveCases := fun w =>
  ⟨decode_eq_error_iff w, fun _ _ hport ⟨_, hdec⟩ => step_of_illegal hport hdec⟩

end Sys2Proof.Machine
end

section
/-! PROOF. The assembler's forms (R113): the word of each, and the operands it rejects. -/

namespace Sys2Proof

/-- The word of fields given as numbers within their widths, with RSV 0, is the form that R113 writes. -/
theorem joinFields_ofNat {op hi lo b : Nat} (hop : op < 16) (hhi : hi < 16) (hlo : lo < 16) (hb : b < 256) :
    joinFields (BitVec.ofNat 4 op) (BitVec.ofNat 4 hi) (BitVec.ofNat 4 lo) 0 (BitVec.ofNat 8 b) =
      BitVec.ofNat 24 ((op <<< 20) ||| (hi <<< 16) ||| (lo <<< 12) ||| b) := by
  have hnibble : ∀ {n : Nat}, n < 16 → (BitVec.ofNat 4 n).setWidth 24 = BitVec.ofNat 24 n := fun h =>
    BitVec.setWidth_ofNat_of_le_of_lt (by decide) h
  have hbyte : (BitVec.ofNat 8 b).setWidth 24 = BitVec.ofNat 24 b := BitVec.setWidth_ofNat_of_le_of_lt (by decide) hb
  have hshift : ∀ n k : Nat, BitVec.ofNat 24 n <<< k = BitVec.ofNat 24 (n <<< k) := fun n k => by
    apply BitVec.eq_of_toNat_eq
    simp only [BitVec.toNat_shiftLeft, BitVec.toNat_ofNat, Nat.shiftLeft_eq, Nat.mod_mul_mod]
  rw [joinFields, hnibble hop, hnibble hhi, hnibble hlo, hbyte, hshift, hshift, hshift]
  simp

/-- FEED's word has the byte in DATA and nothing else, whatever the byte's class (R105, R113). -/
theorem encode_feedInstr (b : Byte) : encode (feedInstr b) = joinFields 0x1 0 0 0 b := by
  obtain ⟨hop, hdata, hfrom, hto, -⟩ := feedInstr_fields b
  rw [encode, hop, hdata, hfrom, hto]
  rfl

end Sys2Proof

namespace Sys2Proof.Machine

theorem byteOperand_of_lt {b : Nat} (h : b < 256) : byteOperand b = some (BitVec.ofNat 8 b) := if_pos h

theorem byteOperand_of_ge {b : Nat} (h : 256 ≤ b) : byteOperand b = none := if_neg (Nat.not_lt.mpr h)

theorem assemble_feed (b : Nat) : assemble .feed [b] = (byteOperand b).map feedInstr := rfl

theorem assemble_ubyte (b : Nat) : assemble .ubyte [b] = (byteOperand b).map .ubyte := rfl

theorem assemble_pbyte (b : Nat) : assemble .pbyte [b] = (byteOperand b).map .pbyte := rfl

theorem assemble_extract_of_bounds {lo hi : Nat} (h : lo < hi ∧ hi ≤ 8) (b : Nat) :
    assemble .extract [b, lo, hi] =
      (byteOperand b).map fun d => .extract d (BitVec.ofNat 4 lo) (BitVec.ofNat 4 hi) := if_pos h

theorem assemble_extract_of_not_bounds {lo hi : Nat} (h : ¬ (lo < hi ∧ hi ≤ 8)) (b : Nat) :
    assemble .extract [b, lo, hi] = none := if_neg h

/-- The word of a form with one byte operand (R113). -/
theorem map_encode_byteOperand {b op : Nat} {f : Byte → Instr} (hb : b < 256) (hop : op < 16)
    (hf : ∀ d, encode (f d) = joinFields (BitVec.ofNat 4 op) 0 0 0 d) :
    ((byteOperand b).map f).map encode = some (BitVec.ofNat 24 (op <<< 20 ||| b)) := by
  have hword := joinFields_ofNat hop (hi := 0) (lo := 0) (by decide) (by decide) hb
  rw [byteOperand_of_lt hb, Option.map_some, Option.map_some, hf]
  simpa using hword

theorem assemble_extract_of_ge {b : Nat} (hb : 256 ≤ b) (lo hi : Nat) : assemble .extract [b, lo, hi] = none := by
  by_cases h : lo < hi ∧ hi ≤ 8
  · rw [assemble_extract_of_bounds h, byteOperand_of_ge hb]
    rfl
  · exact assemble_extract_of_not_bounds h b

theorem encode_assemble_extract {b lo hi : Nat} (hb : b < 256) (hlt : lo < hi) (hle : hi ≤ 8) :
    (assemble .extract [b, lo, hi]).map encode =
      some (BitVec.ofNat 24 (0x900000 ||| (hi <<< 16) ||| (lo <<< 12) ||| b)) := by
  rw [assemble_extract_of_bounds ⟨hlt, hle⟩, byteOperand_of_lt hb]
  exact congrArg some (joinFields_ofNat (op := 9) (by decide) (by omega) (by omega) hb)

/-- Settles O8: each form by its operand count; FEED's word does not depend on the class of its byte. -/
theorem assemblerFormsAndLimits : Obligations.AssemblerFormsAndLimits := by
  refine ⟨by decide, by decide, by decide, by decide, by decide, by decide, fun b hb => ⟨?_, ?_, ?_, ?_⟩,
    fun b hb => ⟨?_, ?_, ?_, assemble_extract_of_ge hb⟩, fun b _ _ h => assemble_extract_of_not_bounds h b⟩
  · exact map_encode_byteOperand (op := 1) hb (by decide) encode_feedInstr
  · exact map_encode_byteOperand (op := 5) hb (by decide) fun _ => rfl
  · exact map_encode_byteOperand (op := 7) hb (by decide) fun _ => rfl
  · exact fun lo hi => encode_assemble_extract hb
  · rw [assemble_feed, byteOperand_of_ge hb]; rfl
  · rw [assemble_ubyte, byteOperand_of_ge hb]; rfl
  · rw [assemble_pbyte, byteOperand_of_ge hb]; rfl

end Sys2Proof.Machine
end

section
/-! PROOF. The bit field of EXTRACT: the document's double reversal is the slice `b[to-1:from]`, and the slice gives the
closed forms and the corner cases (R140 to R142). -/

namespace Sys2Proof

/-- The EXTRACT word of R107, with its fields in place. -/
theorem encode_extract (b : Byte) (lo hi : Nibble) :
    encode (.extract b lo hi) =
      0x900000#24 ||| (hi.setWidth 24 <<< 16) ||| (lo.setWidth 24 <<< 12) ||| b.setWidth 24 := by
  simp [encode, joinFields, Instr.op, Op.code, Instr.toBound, Instr.fromBound, Instr.data]

/-- EXTRACT decodes only with `from < to <= 8` (R104). -/
theorem extract_bounds_of_decode {w : CmdWord} {b : Byte} {lo hi : Nibble} (h : decode w = .ok (.extract b lo hi)) :
    lo.toNat < hi.toNat ∧ hi.toNat ≤ 8 := by
  simpa [Instr.wellFormed] using (encode_eq_of_decode h).2

end Sys2Proof

namespace Sys2Proof.Machine

/-! ### The slice of a byte -/

/-- The slice is the shifted byte under the mask (R140). -/
theorem toNat_slice_eq_shift_and_mask (b : Byte) (lo n : Nat) :
    (b.extractLsb' lo n).toNat = (b.toNat >>> lo) &&& ((1 <<< n) - 1) := by
  rw [BitVec.extractLsb'_toNat, Nat.one_shiftLeft, Nat.and_two_pow_sub_one_eq_mod]

/-- The slice is the sum of its bits by weight (R140): one more bit adds the bit above the slice. -/
theorem toNat_slice_eq_sum (b : Byte) (lo n : Nat) :
    (b.extractLsb' lo n).toNat = ((List.range n).map fun k => (b.getLsbD (lo + k)).toNat * 2 ^ k).sum := by
  rw [BitVec.extractLsb'_toNat]
  induction n with
  | zero => simp [Nat.mod_one]
  | succ n ih =>
    rw [List.range_succ, List.map_append, List.sum_append, ← ih, Nat.mod_pow_succ, List.map_singleton, List.sum_singleton,
      Nat.mul_comm, ← Nat.toNat_testBit, Nat.testBit_shiftRight, BitVec.testBit_toNat]

/-- A slice of one bit is that bit (R142). -/
theorem toNat_slice_one (b : Byte) (lo : Nat) : (b.extractLsb' lo 1).toNat = (b.getLsbD lo).toNat := by
  rw [toNat_slice_eq_sum, List.range_one, List.map_singleton, List.sum_singleton, Nat.pow_zero, Nat.mul_one, Nat.add_zero]

/-- A slice of 0xFF is all ones (R142). -/
theorem slice_ones {lo n : Nat} (h : lo + n ≤ 8) : (0xFF : Byte).extractLsb' lo n = BitVec.allOnes n := by
  ext i hi
  have hin : lo + i < 8 := by omega
  rw [BitVec.getElem_extractLsb', BitVec.getElem_allOnes]
  exact BitVec.getLsbD_allOnes.trans (decide_eq_true hin)

/-! ### The double reversal -/

/-- Read backwards, the first digit is the least significant one. -/
theorem parseBinary_reverse_cons (d : Bool) (ds : List Bool) :
    parseBinary (d :: ds).reverse = d.toNat + 2 * parseBinary ds.reverse := by
  simp [parseBinary, Nat.add_comm]

/-- Digits that stand LSB first, reversed and parsed, are the sum by weight: each later digit weighs twice as much. -/
theorem parseBinary_reverse_map_range (n : Nat) (f : Nat → Bool) :
    parseBinary ((List.range n).map f).reverse = ((List.range n).map fun k => (f k).toNat * 2 ^ k).sum := by
  induction n generalizing f with
  | zero => rfl
  | succ n ih =>
    rw [List.range_succ_eq_map, List.map_cons, List.map_map, parseBinary_reverse_cons, ih]
    simp [Function.comp_def, ← List.sum_map_mul_left, Nat.pow_succ', Nat.mul_left_comm]

/-- The substring `[from, to)` of the eight digits LSB first is the bits from `from` up (R140). -/
theorem drop_take_digits (b : Byte) {lo hi : Nat} (hhi : hi ≤ 8) :
    (((List.range 8).map b.getLsbD).drop lo).take (hi - lo) = (List.range (hi - lo)).map fun k => b.getLsbD (lo + k) := by
  apply List.ext_getElem
  · simp only [List.length_take, List.length_drop, List.length_map, List.length_range]
    omega
  · simp

theorem extractBits_eq_sum (b : Byte) {lo hi : Nat} (hhi : hi ≤ 8) :
    extractBits b lo hi = ((List.range (hi - lo)).map fun k => (b.getLsbD (lo + k)).toNat * 2 ^ k).sum := by
  rw [extractBits, drop_take_digits b hhi, parseBinary_reverse_map_range]

theorem extractBits_eq_slice (b : Byte) {lo hi : Nat} (hhi : hi ≤ 8) :
    extractBits b lo hi = (b.extractLsb' lo (hi - lo)).toNat := by
  rw [extractBits_eq_sum b hhi, toNat_slice_eq_sum]

/-- Settles O54: the double reversal is the sum of the slice's bits, so it is the slice. -/
theorem doubleReversalIsTheField : Obligations.DoubleReversalIsTheField := fun b _ _ _ hhi =>
  ⟨extractBits_eq_sum b hhi, extractBits_eq_slice b hhi,
    (extractBits_eq_slice b hhi).trans (toNat_slice_eq_shift_and_mask b _ _)⟩

/-! ### The field EXTRACT emits -/

/-- The field EXTRACT emits is the slice (R140, R141). -/
theorem toNat_extractField_eq_slice (b : Byte) (lo hi : Nibble) :
    (extractField b lo hi).toNat = (b.extractLsb' lo.toNat (hi.toNat - lo.toNat)).toNat :=
  (toNat_extractField b lo hi).trans (toNat_slice_eq_shift_and_mask b _ _).symm

theorem extractField_eq_zero {b : Byte} {lo hi : Nibble} (h : b.extractLsb' lo.toNat (hi.toNat - lo.toNat) = 0) :
    extractField b lo hi = 0 := by
  rw [← BitVec.toNat_inj, toNat_extractField_eq_slice, h]
  rfl

theorem toNat_extractField_of_width_one (b : Byte) {lo hi : Nibble} (hone : hi.toNat = lo.toNat + 1) :
    (extractField b lo hi).toNat = (b.getLsbD lo.toNat).toNat := by
  rw [toNat_extractField_eq_slice, hone, Nat.add_sub_cancel_left, toNat_slice_one]

theorem extractField_zero_eight (b : Byte) : extractField b 0 8 = b := by
  have hslice : (extractField b 0 8).toNat = (b.extractLsb' 0 8).toNat := toNat_extractField_eq_slice b 0 8
  exact BitVec.eq_of_toNat_eq (hslice.trans (congrArg BitVec.toNat BitVec.extractLsb'_eq_self))

/-- EXTRACT emits the field and does nothing else (R141). -/
theorem exec_extract (b : Byte) (lo hi : Nibble) (s : State) :
    exec (.extract b lo hi) s = .next (s.emit [.xout (extractField b lo hi)]) := rfl

/-- Settles O53: EXTRACT's one effect is the event, and its value is the slice. -/
theorem extractEmitsTheField : Obligations.ExtractEmitsTheField := by
  refine ⟨encode_extract, fun s b lo hi _ hhi => ⟨_, _, exec_extract b lo hi s, rfl, toNat_extractField b lo hi, ?_,
    ⟨⟨rfl, rfl, rfl⟩, fun _ => rfl⟩, ⟨rfl, rfl⟩, ⟨rfl, rfl⟩, rfl, rfl, rfl⟩⟩
  rw [toNat_extractField_eq_slice, extractBits_eq_slice b hhi]

/-- Settles O55: the corner cases of a field are those of its slice. -/
theorem extractCornerCases : Obligations.ExtractCornerCases := by
  refine ⟨extractField_zero_eight, fun b _ _ hone _ => toNat_extractField_of_width_one b hone,
    fun b lo hi hlt hhi => ⟨?zero, ?ones, ?below, extractField_eq_zero⟩, fun w b lo hi h heq => ?bounds,
    fun b => toNat_extractField_of_width_one b rfl⟩
  case zero => exact extractField_eq_zero BitVec.extractLsb'_zero
  case ones => rw [toNat_extractField_eq_slice, slice_ones (by omega), BitVec.toNat_allOnes]
  case below =>
    rw [toNat_extractField_eq_slice]
    exact BitVec.isLt _
  case bounds =>
    have hlt := (extract_bounds_of_decode h).1
    rw [heq] at hlt
    exact Nat.lt_irrefl _ hlt

end Sys2Proof.Machine
end

section
/-! PROOF. The outputs by unit (R44, R80): a command emits on its own unit's outputs only, and leaves every other unit's
part of the state as it was. -/

namespace Sys2Proof.Machine

/-- The unit whose commands emit on the event's output. -/
def Event.unit : Event → FunctionalUnit
  | .frame _ => .assembler
  | .err _ => .assembler
  | .uout _ => .unpacker
  | .pout _ => .packer
  | .xout _ => .extractor

/-- `i` completes from `s`, and each event that it emits belongs to its own unit. -/
def EmitsOwnEvents (i : Instr) (s : State) : Prop :=
  ∃ t evs, exec i s = .next t ∧ Emits s t evs ∧ ∀ e ∈ evs, unitOf i = some e.unit

theorem EmitsOwnEvents.silent {i : Instr} {s t : State} (h : exec i s = .next t) (hout : t.out = s.out) :
    EmitsOwnEvents i s :=
  ⟨t, [], h, hout.trans (List.append_nil _).symm, nofun⟩

theorem EmitsOwnEvents.one {i : Instr} {s t : State} {e : Event} (h : exec i s = .next t) (hout : t.out = s.out ++ [e])
    (he : unitOf i = some e.unit) : EmitsOwnEvents i s :=
  ⟨t, [e], h, hout, List.forall_mem_singleton.mpr he⟩

theorem EmitsOwnEvents.pouts {i : Instr} {s t : State} {bs : List Byte} (h : exec i s = .next t)
    (hout : t.out = s.out ++ bs.map .pout) (hi : unitOf i = some .packer) : EmitsOwnEvents i s :=
  ⟨t, bs.map .pout, h, hout, List.forall_mem_map.mpr fun _ _ => hi⟩

theorem emitsOwnEvents (i : Instr) (s : State) : EmitsOwnEvents i s := by
  cases i with
  | nop => exact .silent rfl rfl
  | feedSox => exact .silent rfl rfl
  | feedEox =>
    obtain ⟨-, he⟩ | ⟨-, -, he⟩ | ⟨-, -, he⟩ := exec_feedEox_cases s
    · exact .silent he rfl
    · exact .silent he rfl
    · exact .one he rfl rfl
  | feedData b =>
    obtain ⟨-, he⟩ | ⟨-, -, he⟩ | ⟨-, -, he⟩ := exec_feedData_cases b s
    · exact .silent he rfl
    · exact .silent he rfl
    · exact .one he rfl rfl
  | feedStatus b =>
    obtain ⟨-, he⟩ | ⟨-, he⟩ := exec_feedStatus_cases b s
    · exact .silent he rfl
    · exact .one he rfl rfl
  | take =>
    obtain ⟨-, he⟩ | ⟨-, he⟩ := exec_take_cases s
    · exact .one he rfl rfl
    · exact .one he rfl rfl
  | reset => exact .silent rfl rfl
  | ustart => exact .silent rfl rfl
  | ubyte b =>
    obtain ⟨-, he⟩ | ⟨-, he⟩ := exec_ubyte_cases b s
    · exact .silent he rfl
    · exact .one he rfl rfl
  | pstart => exact .silent rfl rfl
  | pbyte b =>
    obtain ⟨-, he⟩ | ⟨-, he⟩ := exec_pbyte_cases b s
    · exact .silent he rfl
    · exact .pouts he rfl rfl
  | pflush =>
    obtain ⟨-, he⟩ | ⟨-, he⟩ := exec_pflush_cases s
    · exact .silent he rfl
    · exact .pouts he rfl rfl
  | extract b lo hi => exact .one (exec_extract b lo hi s) rfl rfl

/-- A command that is neither RESET nor of unit `w` leaves `w`'s part of the state as it was. -/
theorem copyUnit_eq_of_exec {i : Instr} {w : FunctionalUnit} {s t : State} (hreset : i ≠ .reset)
    (hw : unitOf i ≠ some w) (h : exec i s = .next t) : copyUnit w s t = t := by
  cases hu : unitOf i with
  | some u =>
    have hwu : w ≠ u := fun heq => hw (heq ▸ hu)
    obtain ⟨t', evs, hlocal⟩ := localAt_exec hu s
    have hrun := hlocal s
    rw [copyUnit_self, h] at hrun
    cases hrun
    rw [copyUnit_emit, copyUnit_comm hwu, copyUnit_self]
  | none =>
    cases i with
    | nop => cases h; exact copyUnit_self w s
    | reset => exact absurd rfl hreset
    | _ => cases hu

/-- A command that is neither RESET nor of unit `w` completes, leaves `w`'s part of the state as it was, and emits nothing on
`w`'s outputs (R80). -/
theorem exec_of_other_unit {i : Instr} {w : FunctionalUnit} (hreset : i ≠ .reset) (hw : unitOf i ≠ some w) (s : State) :
    ∃ t evs, exec i s = .next t ∧ copyUnit w s t = t ∧ Emits s t evs ∧ ∀ e ∈ evs, e.unit ≠ w := by
  obtain ⟨t, evs, hexec, hemits, hown⟩ := emitsOwnEvents i s
  exact ⟨t, evs, hexec, copyUnit_eq_of_exec hreset hw hexec, hemits, fun e he heq => hw (heq ▸ hown e he)⟩

end Sys2Proof.Machine
end

section
/-! PROOF. `unpack`, one byte at a time (R160): its last byte adds nothing when it is the high-bits byte of a new run, and
its unpacked byte otherwise. From this the length of an unpacked buffer (R164). -/

namespace Sys2Proof.Machine

/-- The byte of `unpack p` at position `pos` of run `g`, where the buffer has one. -/
def unpackAt (p : List Byte) (g pos : Nat) : Option Byte :=
  (p[8 * g + pos]?).map (unpackByte (p.getD (8 * g) 0) pos)

/-- The bytes of run `g` of `unpack p`. -/
def unpackRun (p : List Byte) (g : Nat) : List Byte := (List.range' 1 7).filterMap (unpackAt p g)

theorem unpack_eq_flatMap_unpackRun (p : List Byte) :
    unpack p = (List.range ((p.length + 7) / 8)).flatMap (unpackRun p) := rfl

theorem unpackAt_eq_none {p : List Byte} {g pos : Nat} (h : p.length ≤ 8 * g + pos) : unpackAt p g pos = none := by
  rw [unpackAt, List.getElem?_eq_none h, Option.map_none]

theorem unpackAt_append {p : List Byte} {g pos : Nat} (h : 8 * g + pos < p.length) (q : List Byte) :
    unpackAt (p ++ q) g pos = unpackAt p g pos := by
  rw [unpackAt, unpackAt, List.getElem?_append_left h, List.getD_append _ _ _ _ (by omega)]

theorem unpackAt_concat_last {p : List Byte} (h : p.length % 8 ≠ 0) (b : Byte) :
    unpackAt (p ++ [b]) (p.length / 8) (p.length % 8) =
      some (unpackByte (p.getD (8 * (p.length / 8)) 0) (p.length % 8) b) := by
  rw [unpackAt, Nat.div_add_mod, List.getElem?_concat_length, List.getD_append _ _ _ _ (by omega), Option.map_some]

/-- A run that the buffer does not fill ends at the buffer's end. -/
theorem unpackRun_eq_of_length_le {p : List Byte} {g m : Nat} (hm : m ≤ 7) (h : p.length ≤ 8 * g + (m + 1)) :
    unpackRun p g = (List.range' 1 m).filterMap (unpackAt p g) := by
  have hsplit : List.range' 1 7 = List.range' 1 m ++ List.range' (1 + m) (7 - m) := by
    rw [List.range'_append_1, Nat.add_sub_cancel' hm]
  have htail : (List.range' (1 + m) (7 - m)).filterMap (unpackAt p g) = [] :=
    List.filterMap_eq_nil_iff.mpr fun pos hpos => by
      obtain ⟨hlo, -⟩ := List.mem_range'_1.mp hpos
      exact unpackAt_eq_none (by omega)
  rw [unpackRun, hsplit, List.filterMap_append, htail, List.append_nil]

/-- A run that the buffer does not reach past its high-bits byte gives nothing. -/
theorem unpackRun_eq_nil {p : List Byte} {g : Nat} (h : p.length ≤ 8 * g + 1) : unpackRun p g = [] :=
  unpackRun_eq_of_length_le (m := 0) (Nat.zero_le 7) h

/-- Positions that the buffer fills are as they were when it grows. -/
theorem filterMap_unpackAt_append {p : List Byte} {g m : Nat} (h : 8 * g + m < p.length) (q : List Byte) :
    (List.range' 1 m).filterMap (unpackAt (p ++ q) g) = (List.range' 1 m).filterMap (unpackAt p g) :=
  List.filterMap_congr fun pos hpos => by
    obtain ⟨-, hhi⟩ := List.mem_range'_1.mp hpos
    exact unpackAt_append (by omega) q

/-- The full runs of the buffer, and its last, partial or missing one. -/
theorem unpack_eq_append_last_run (p : List Byte) :
    unpack p = (List.range (p.length / 8)).flatMap (unpackRun p) ++ unpackRun p (p.length / 8) := by
  rw [unpack_eq_flatMap_unpackRun]
  by_cases hfull : p.length % 8 = 0
  · have hcount : (p.length + 7) / 8 = p.length / 8 := by omega
    rw [hcount, unpackRun_eq_nil (by omega), List.append_nil]
  · have hcount : (p.length + 7) / 8 = p.length / 8 + 1 := by omega
    rw [hcount, List.range_succ, List.flatMap_append, List.flatMap_singleton]

/-- What the byte `b` adds to `unpack p` when it comes next. -/
def unpackNext (p : List Byte) (b : Byte) : List Byte :=
  if p.length % 8 = 0 then [] else [unpackByte (p.getD (8 * (p.length / 8)) 0) (p.length % 8) b]

/-- The byte that comes next belongs to the last run: as its high-bits byte, or at its next position. -/
theorem unpackRun_last_concat (p : List Byte) (b : Byte) :
    unpackRun (p ++ [b]) (p.length / 8) = unpackRun p (p.length / 8) ++ unpackNext p b := by
  have hlen : (p ++ [b]).length = p.length + 1 := List.length_append
  cases hpos : p.length % 8 with
  | zero => rw [unpackNext, if_pos hpos, unpackRun_eq_nil (by omega), unpackRun_eq_nil (by omega), List.append_nil]
  | succ m =>
    have hwithin : p.length % 8 ≠ 0 := hpos ▸ Nat.succ_ne_zero m
    have hlast := unpackAt_concat_last hwithin b
    rw [unpackNext, if_neg hwithin, unpackRun_eq_of_length_le (m := m + 1) (by omega) (by omega),
      unpackRun_eq_of_length_le (m := m) (by omega) (by omega), List.range'_1_concat, List.filterMap_append,
      filterMap_unpackAt_append (by omega), Nat.add_comm 1 m, ← hpos, List.filterMap_cons_some hlast, List.filterMap_nil]

theorem unpack_concat (p : List Byte) (b : Byte) : unpack (p ++ [b]) = unpack p ++ unpackNext p b := by
  have hcount : ((p ++ [b]).length + 7) / 8 = p.length / 8 + 1 := by
    rw [List.length_append, List.length_singleton]
    omega
  have hfull : ∀ g ∈ List.range (p.length / 8), unpackRun (p ++ [b]) g = unpackRun p g := fun g hg => by
    have hlt := List.mem_range.mp hg
    exact filterMap_unpackAt_append (by omega) [b]
  rw [unpack_eq_flatMap_unpackRun, hcount, List.range_succ, List.flatMap_append, List.flatMap_singleton,
    List.flatMap_congr hfull, unpackRun_last_concat, unpack_eq_append_last_run p, List.append_assoc]

theorem length_unpackNext (p : List Byte) (b : Byte) :
    (unpackNext p b).length = if p.length % 8 = 0 then 0 else 1 := by
  rw [unpackNext, apply_ite List.length]
  rfl

theorem length_unpack (p : List Byte) : (unpack p).length = 7 * (p.length / 8) + (p.length % 8 - 1) := by
  induction p using List.reverseRecOn with
  | nil => rfl
  | append_singleton p b ih =>
    rw [unpack_concat, List.length_append, ih, length_unpackNext, List.length_append, List.length_singleton]
    split <;> omega

/-- Settles O45: of each run all but the high-bits byte is emitted. -/
theorem unpackedLength : Obligations.UnpackedLength := fun p => by
  refine ⟨length_unpack p, ?_⟩
  rw [length_unpack]
  omega

end Sys2Proof.Machine
end

section
/-! PROOF. The unpacker's commands (R161, R162), and a stream of them between other units' commands (R163). -/

namespace Sys2Proof.Machine

/-! ### One command -/

theorem encode_ubyte (b : Byte) : encode (.ubyte b) = 0x500000#24 ||| b.setWidth 24 := by
  simp [encode, joinFields, Instr.op, Op.code, Instr.toBound, Instr.fromBound, Instr.data]

/-- USTART writes U_POS and does nothing else (R161). -/
theorem exec_ustart (s : State) : exec .ustart s = .next (s.setUPos 0) := rfl

theorem setUPos_zero_of_zero {s : State} (h : s.uPos = 0) : s.setUPos 0 = s := by
  rw [← h]
  rfl

/-- Settles O42: USTART writes 0 to U_POS, which changes nothing where it is 0. -/
theorem ustartBeginsARun : Obligations.UstartBeginsARun :=
  ⟨by decide, fun s => ⟨_, exec_ustart s, rfl, rfl, ⟨⟨rfl, rfl, rfl⟩, fun _ => rfl⟩, ⟨rfl, rfl⟩, rfl,
    (List.append_nil _).symm, ⟨rfl, rfl⟩, setUPos_zero_of_zero⟩⟩

/-- Away from position 0, U_POS is a position 1..7. -/
theorem uPos_bounds {s : State} (h : s.uPos ≠ 0) : 1 ≤ s.uPos.toNat ∧ s.uPos.toNat ≤ 7 := by
  bv_omega

/-- Settles O43: at position 0 the byte goes to U_HB; elsewhere the event's bits are those of the unpacked byte. -/
theorem ubyteLoadsOrEmits : Obligations.UbyteLoadsOrEmits := by
  refine ⟨encode_ubyte, fun s b => ?_⟩
  obtain ⟨hpos, he⟩ | ⟨hpos, he⟩ := exec_ubyte_cases b s
  · refine ⟨_, he, ?_, ⟨⟨rfl, rfl, rfl⟩, fun _ => rfl⟩, ⟨rfl, rfl⟩, rfl, ⟨rfl, rfl⟩, ?_⟩
    · rw [hpos]
      rfl
    · rw [if_pos hpos]
      exact ⟨rfl, (List.append_nil _).symm⟩
  · obtain ⟨hlo, hhi⟩ := uPos_bounds hpos
    refine ⟨_, he, BitVec.toNat_add _ _, ⟨⟨rfl, rfl, rfl⟩, fun _ => rfl⟩, ⟨rfl, rfl⟩, rfl, ⟨rfl, rfl⟩, ?_⟩
    rw [if_neg hpos]
    refine ⟨rfl, _, rfl, fun k hk => ?_, ?_⟩
    · rw [getLsbD_unpackByte _ _ _ _ hlo hhi, decide_eq_false (Nat.ne_of_lt hk), Bool.false_and, Bool.or_false]
    · rw [getLsbD_unpackByte _ _ _ _ hlo hhi, decide_eq_true rfl, Bool.true_and]

/-! ### The stream -/

theorem uoutBytes_append (evs evs' : List Event) : uoutBytes (evs ++ evs') = uoutBytes evs ++ uoutBytes evs' :=
  List.filterMap_append

theorem uoutBytes_eq_nil {evs : List Event} (h : ∀ e ∈ evs, e.unit ≠ .unpacker) : uoutBytes evs = [] := by
  refine List.filterMap_eq_nil_iff.mpr fun e he => ?_
  cases e with
  | uout b => exact absurd rfl (h _ he)
  | _ => rfl

/-- From `s` to `t` the bytes `bs` are emitted on UOUT, whatever else is emitted between them. -/
def EmitsUout (s t : State) (bs : List Byte) : Prop := ∃ evs, Emits s t evs ∧ uoutBytes evs = bs

theorem EmitsUout.append {s t r : State} {bs bs' : List Byte} (h : EmitsUout s t bs) (h' : EmitsUout t r bs') :
    EmitsUout s r (bs ++ bs') := by
  obtain ⟨evs, hemits, rfl⟩ := h
  obtain ⟨evs', hemits', rfl⟩ := h'
  exact ⟨evs ++ evs', (hemits.append hemits').trans (List.append_assoc _ _ _), uoutBytes_append _ _⟩

theorem EmitsUout.silent {s t : State} (h : t.out = s.out) : EmitsUout s t [] :=
  ⟨[], h.trans (List.append_nil _).symm, rfl⟩

/-- The unpacker, as USTART from `s` and then the bytes `p` leave it in `t`: `unpack p` is emitted, and U_POS and, within a
run, U_HB stand where `p` ends. -/
structure UnpackedSince (s : State) (p : List Byte) (t : State) : Prop where
  emitted : EmitsUout s t (unpack p)
  position : t.uPos.toNat = p.length % 8
  highBits : t.uPos ≠ 0 → t.uHb = p.getD (8 * (p.length / 8)) 0

theorem unpackedSince_ustart (s : State) : UnpackedSince s [] (s.setUPos 0) where
  emitted := .silent rfl
  position := rfl
  highBits := fun h => absurd rfl h

theorem UnpackedSince.uPos_eq_zero_iff {s t : State} {p : List Byte} (h : UnpackedSince s p t) :
    t.uPos = 0 ↔ p.length % 8 = 0 := by
  rw [← h.position, ← BitVec.toNat_inj]
  rfl

/-- A command of another unit leaves the unpacker where it was. -/
theorem UnpackedSince.after_other_unit {s t : State} {p : List Byte} (h : UnpackedSince s p t) {i : Instr}
    (hreset : i ≠ .reset) (hi : unitOf i ≠ some .unpacker) : ∃ r, exec i t = .next r ∧ UnpackedSince s p r := by
  obtain ⟨r, evs, hexec, hsame, hemits, hother⟩ := exec_of_other_unit hreset hi t
  have hemitted := h.emitted.append ⟨evs, hemits, uoutBytes_eq_nil hother⟩
  rw [List.append_nil] at hemitted
  refine ⟨r, hexec, ?_⟩
  rw [← hsame] at hemitted ⊢
  exact ⟨hemitted, h.position, h.highBits⟩

/-- UBYTE adds its byte to the stream. -/
theorem UnpackedSince.after_ubyte {s t : State} {p : List Byte} (h : UnpackedSince s p t) (b : Byte) :
    ∃ r, exec (.ubyte b) t = .next r ∧ UnpackedSince s (p ++ [b]) r := by
  have hlen : (p ++ [b]).length = p.length + 1 := List.length_append
  have hnext : (t.uPos + 1).toNat = (p ++ [b]).length % 8 := by
    rw [BitVec.toNat_add, h.position, hlen]
    exact Nat.mod_add_mod _ _ _
  obtain ⟨hpos, he⟩ | ⟨hpos, he⟩ := exec_ubyte_cases b t
  · have hstart : p.length % 8 = 0 := h.uPos_eq_zero_iff.mp hpos
    rw [hpos] at hnext
    refine ⟨_, he, ?emitted, hnext, fun _ => ?highBits⟩
    case emitted =>
      rw [unpack_concat, unpackNext, if_pos hstart]
      exact h.emitted.append (.silent rfl)
    case highBits =>
      have hplace : 8 * ((p ++ [b]).length / 8) = p.length := by omega
      rw [hplace, List.getD_append_right _ _ _ _ le_rfl, Nat.sub_self]
      rfl
  · have hwithin : p.length % 8 ≠ 0 := mt h.uPos_eq_zero_iff.mpr hpos
    refine ⟨_, he, ?emitted, hnext, fun hne => ?highBits⟩
    case emitted =>
      rw [unpack_concat, unpackNext, if_neg hwithin, ← h.position, ← h.highBits hpos]
      exact h.emitted.append ⟨_, rfl, rfl⟩
    case highBits =>
      have hinside : (p ++ [b]).length % 8 ≠ 0 := fun hzero => hne (BitVec.eq_of_toNat_eq (hnext.trans hzero))
      have hrun : (p ++ [b]).length / 8 = p.length / 8 := by omega
      rw [hrun, List.getD_append _ _ _ _ (by omega)]
      exact h.highBits hpos

/-- The stream from any point on: its UBYTEs add their bytes, in order. -/
theorem UnpackedSince.after_stream {s : State} (is : List Instr) {t : State} {p q : List Byte} (h : UnpackedSince s p t)
    (hubytes : is.filter (fun i => unitOf i = some .unpacker) = q.map .ubyte) (hreset : .reset ∉ is) :
    ∃ r, execAll is t = .next r ∧ UnpackedSince s (p ++ q) r := by
  induction is generalizing t p q with
  | nil =>
    obtain rfl : q = [] := List.map_eq_nil_iff.mp hubytes.symm
    rw [List.append_nil]
    exact ⟨t, rfl, h⟩
  | cons i is ih =>
    obtain ⟨hi, his⟩ := not_or.mp (mt List.mem_cons.mpr hreset)
    by_cases hunit : unitOf i = some .unpacker
    · rw [List.filter_cons, if_pos (decide_eq_true hunit)] at hubytes
      obtain ⟨b, q, rfl, rfl, hrest⟩ := List.map_eq_cons_iff.mp hubytes.symm
      obtain ⟨r, hexec, hr⟩ := h.after_ubyte b
      rw [execAll_cons_of_next hexec, List.append_cons]
      exact ih hr hrest.symm his
    · rw [List.filter_cons, if_neg (mt of_decide_eq_true hunit)] at hubytes
      obtain ⟨r, hexec, hr⟩ := h.after_other_unit (Ne.symm hi) hunit
      rw [execAll_cons_of_next hexec]
      exact ih hr hubytes his

/-- Settles O44: by induction on the commands after USTART; each UBYTE adds what its byte adds to `unpack`. -/
theorem unpackStreamIsUnpack : Obligations.UnpackStreamIsUnpack := by
  intro s p is hubytes hreset
  obtain ⟨t, hrun, ⟨evs, hemits, hunpack⟩, hpos, -⟩ := (unpackedSince_ustart s).after_stream is hubytes hreset
  refine ⟨t, (execAll_cons_of_next (exec_ustart s) is).trans hrun, ⟨evs, hemits.symm⟩, ?_, hpos⟩
  rw [hemits, List.drop_left, hunpack]
  rfl

end Sys2Proof.Machine
end

section
/-! PROOF. The packer's commands, one at a time (R191 to R193). -/

namespace Sys2Proof.Machine

theorem encode_pbyte (b : Byte) : encode (.pbyte b) = 0x700000#24 ||| b.setWidth 24 := by
  simp [encode, joinFields, Instr.op, Op.code, Instr.toBound, Instr.fromBound, Instr.data]

/-- PSTART writes P_CNT and does nothing else (R191). -/
theorem exec_pstart (s : State) : exec .pstart s = .next (s.setPCnt 0) := rfl

/-- Settles O46: PSTART writes 0 to P_CNT. -/
theorem pstartBeginsAGroup : Obligations.PstartBeginsAGroup :=
  ⟨by decide, fun s => ⟨_, exec_pstart s, rfl, rfl, ⟨⟨rfl, rfl, rfl⟩, fun _ => rfl⟩, ⟨rfl, rfl⟩, rfl,
    (List.append_nil _).symm, ⟨rfl, rfl⟩⟩⟩

/-- The high-bits byte has no bit past the group's last byte (R190). -/
theorem getLsbD_highBits_of_length_le {grp : List Byte} {k : Nat} (h : grp.length ≤ k) :
    (highBits grp).getLsbD k = false := by
  rw [getLsbD_highBits, List.getD_eq_default _ _ h]
  exact Bool.and_false _

/-- Within a group of up to 8 bytes the high-bits byte has bit 7 of each byte at that byte's place (R190). -/
theorem getLsbD_highBits_of_lt {grp : List Byte} {k : Nat} (hgrp : grp.length ≤ 8) (h : k < grp.length) :
    (highBits grp).getLsbD k = grp[k].getLsbD 7 := by
  rw [getLsbD_highBits, decide_eq_true (h.trans_le hgrp), Bool.true_and, List.getD_eq_getElem _ _ h]

theorem map_pout_packGroup (grp : List Byte) :
    (packGroup grp).map Event.pout = .pout (highBits grp) :: grp.map fun x => .pout (x &&& 0x7F) := by
  rw [packGroup, List.map_cons, List.map_map]
  rfl

/-- Settles O47: below 6 the byte goes to its place in P_BUF; at 6 the high-bits byte is that of the six bytes held and `b`. -/
theorem pbyteHoldsOrEmits : Obligations.PbyteHoldsOrEmits := by
  refine ⟨encode_pbyte, fun s b _ => ?_⟩
  obtain ⟨hcnt, he⟩ | ⟨hcnt, he⟩ := exec_pbyte_cases b s
  · refine ⟨_, he, ⟨⟨rfl, rfl, rfl⟩, fun _ => rfl⟩, ⟨rfl, rfl⟩, rfl, ⟨rfl, rfl⟩, ?_⟩
    have hnext : (s.pCnt + 1).toNat = s.pCnt.toNat + 1 := by bv_omega
    rw [if_pos hcnt]
    refine ⟨hnext, (List.append_nil _).symm, fun j hj => ?_⟩
    rw [State.setPCnt_pBuf, State.setPBuf_pBuf, Vector.getElem_setIfInBounds hj]
    exact if_congr eq_comm rfl rfl
  · refine ⟨_, he, ⟨⟨rfl, rfl, rfl⟩, fun _ => rfl⟩, ⟨rfl, rfl⟩, rfl, ⟨rfl, rfl⟩, ?_⟩
    have hlen : (s.pBuf.toList ++ [b]).length = 7 := by simp
    rw [if_neg (Nat.not_lt.mpr hcnt), map_pout_packGroup]
    refine ⟨rfl, rfl, _, rfl, fun j hj => ?_, ?_, getLsbD_highBits_of_length_le hlen.le⟩
    · rw [getLsbD_highBits_of_lt (by omega) (by omega), List.getElem_append_left (by simpa using hj), Vector.getElem_toList]
    · rw [getLsbD_highBits_of_lt (by omega) (by omega)]
      simp

/-- Settles O48: the high-bits byte emitted is that of the bytes held. -/
theorem pflushEmitsThePartialGroup : Obligations.PflushEmitsThePartialGroup := by
  refine ⟨by decide, fun s hcnt => ?_⟩
  obtain ⟨hzero, he⟩ | ⟨hpos, he⟩ := exec_pflush_cases s
  · refine ⟨_, he, hzero, rfl, ⟨⟨rfl, rfl, rfl⟩, fun _ => rfl⟩, ⟨rfl, rfl⟩, rfl, ⟨rfl, rfl⟩, ?_⟩
    rw [if_pos hzero]
    exact (List.append_nil _).symm
  · refine ⟨_, he, rfl, rfl, ⟨⟨rfl, rfl, rfl⟩, fun _ => rfl⟩, ⟨rfl, rfl⟩, rfl, ⟨rfl, rfl⟩, ?_⟩
    have hlen := length_heldBytes s hcnt
    rw [if_neg hpos, map_pout_packGroup]
    refine ⟨_, rfl, fun j _ hj => ?_, fun j hj => getLsbD_highBits_of_length_le (hlen.trans_le hj)⟩
    rw [getLsbD_highBits_of_lt (by omega) (by omega)]
    simp [State.heldBytes]

end Sys2Proof.Machine
end

section
/-! PROOF. `pack`, one group at a time (R190), and the shape of a packed buffer (R195). -/

namespace Sys2Proof.Machine

/-! ### Bytes below a power of two -/

theorem toNat_lt_two_pow_iff (b : Byte) (n : Nat) : b.toNat < 2 ^ n ↔ ∀ k, n ≤ k → b.getLsbD k = false :=
  ⟨fun h _ hk => Nat.testBit_lt_two_pow (h.trans_le (Nat.pow_le_pow_right Nat.two_pos hk)), Nat.lt_pow_two_of_testBit _⟩

/-- A byte is below 0x80 exactly when its bit 7 is 0 (R16). -/
theorem toNat_lt_0x80_iff (b : Byte) : b.toNat < 0x80 ↔ b.getLsbD 7 = false := by
  refine (toNat_lt_two_pow_iff b 7).trans ⟨fun h => h 7 le_rfl, fun h k hk => ?_⟩
  obtain rfl | hgt := hk.eq_or_lt
  · exact h
  · exact BitVec.getLsbD_of_ge _ _ hgt

theorem getLsbD_and_0x7F (b : Byte) (k : Nat) : (b &&& 0x7F#8).getLsbD k = (b.getLsbD k && decide (k < 7)) := by
  have hmask : 0x7F#8 = (BitVec.allOnes 7).setWidth 8 := by decide
  rw [BitVec.getLsbD_and, hmask, BitVec.getLsbD_setWidth, BitVec.getLsbD_allOnes]
  grind

/-! ### The groups -/

/-- Induction by groups of `n`: a list shorter than one group, or a group and a list. -/
theorem groups_induction {α : Type} {motive : List α → Prop} (n : Nat) (hn : 0 < n)
    (short : ∀ l, l.length < n → motive l) (group : ∀ g l, g.length = n → motive l → motive (g ++ l)) (l : List α) :
    motive l := by
  by_cases h : l.length < n
  · exact short l h
  · have hrest := groups_induction n hn short group (l.drop n)
    rw [← List.take_append_drop n l]
    exact group _ _ (List.length_take_of_le (Nat.not_lt.mp h)) hrest
termination_by l.length
decreasing_by
  rw [List.length_drop]
  omega

/-- Full groups are packed by themselves, whatever follows. -/
theorem pack_append {u : List Byte} (h : u.length % 7 = 0) (v : List Byte) : pack (u ++ v) = pack u ++ pack v := by
  have hcount : ((u ++ v).length + 6) / 7 = (u.length + 6) / 7 + (v.length + 6) / 7 := by
    rw [List.length_append]
    omega
  have hleft : ∀ g ∈ List.range ((u.length + 6) / 7),
      packGroup (((u ++ v).drop (7 * g)).take 7) = packGroup ((u.drop (7 * g)).take 7) := fun g hg => by
    have hlt := List.mem_range.mp hg
    rw [List.drop_append_of_le_length (by omega), List.take_append_of_le_length (by rw [List.length_drop]; omega)]
  have hright : ∀ g, (u ++ v).drop (7 * ((u.length + 6) / 7 + g)) = v.drop (7 * g) := fun g => by
    have hplace : 7 * ((u.length + 6) / 7 + g) = u.length + 7 * g := by omega
    rw [hplace, List.drop_append, List.drop_eq_nil_of_le (Nat.le_add_right _ _), Nat.add_sub_cancel_left, List.nil_append]
  rw [pack, hcount, List.range_add, List.flatMap_append, List.flatMap_congr hleft, List.flatMap_map]
  simp only [hright]
  rfl

/-- One group, full or not, is packed as PBYTE and PFLUSH emit it. -/
theorem pack_eq_packGroup {grp : List Byte} (hne : grp ≠ []) (hlen : grp.length ≤ 7) : pack grp = packGroup grp := by
  have hcount : (grp.length + 6) / 7 = 1 := by
    have hpos := List.length_pos_iff.mpr hne
    omega
  rw [pack, hcount, List.range_one, List.flatMap_singleton, Nat.mul_zero, List.drop_zero, List.take_of_length_le hlen]

theorem pack_group_append {grp : List Byte} (hlen : grp.length = 7) (v : List Byte) :
    pack (grp ++ v) = packGroup grp ++ pack v := by
  have hne : grp ≠ [] := List.ne_nil_of_length_pos (by omega)
  rw [pack_append (by omega), pack_eq_packGroup hne hlen.le]

/-! ### The shape -/

theorem length_pack (u : List Byte) : (pack u).length = u.length + (u.length + 6) / 7 := by
  induction u using groups_induction 7 (by decide) with
  | short u hlen =>
    obtain rfl | hne := eq_or_ne u []
    · rfl
    · have hpos := List.length_pos_iff.mpr hne
      rw [pack_eq_packGroup hne hlen.le, length_packGroup]
      omega
  | group grp v hlen ih =>
    rw [pack_group_append hlen, List.length_append, length_packGroup, ih, List.length_append]
    omega

/-- Every byte of a group of up to 7 bytes, as emitted, is below 0x80 (R195). -/
theorem isPacked_packGroup {grp : List Byte} (hlen : grp.length ≤ 7) : IsPacked (packGroup grp) := by
  refine List.forall_mem_cons.mpr ⟨?_, List.forall_mem_map.mpr fun b _ => ?_⟩
  · exact (toNat_lt_0x80_iff _).mpr (getLsbD_highBits_of_length_le hlen)
  · rw [toNat_lt_0x80_iff, getLsbD_and_0x7F]
    exact Bool.and_false _

theorem isPacked_pack (u : List Byte) : IsPacked (pack u) := fun b hb => by
  obtain ⟨g, -, hmem⟩ := List.mem_flatMap.mp hb
  exact isPacked_packGroup (List.length_take_le _ _) b hmem

/-- Settles O50: of each group one byte more is emitted than it has. -/
theorem packedShape : Obligations.PackedShape := fun u => by
  refine ⟨length_pack u, isPacked_pack u, ?_⟩
  rw [length_pack]
  split <;> omega

end Sys2Proof.Machine
end

section
/-! PROOF. A stream of the packer's commands between other units' commands (R194). -/

namespace Sys2Proof.Machine

/-! ### The bytes held -/

theorem heldBytes_of_pCnt_zero {s : State} (h : s.pCnt = 0) : s.heldBytes = [] := by
  rw [State.heldBytes, h]
  rfl

/-- Six bytes held are the whole of P_BUF. -/
theorem heldBytes_of_full {s : State} (h : 6 ≤ s.pCnt.toNat) : s.heldBytes = s.pBuf.toList :=
  List.take_of_length_le (by rwa [Vector.length_toList])

/-- PBYTE below 6 adds its byte after those held (R192). -/
theorem heldBytes_hold {s : State} (h : s.pCnt.toNat < 6) (b : Byte) :
    ((s.setPBuf s.pCnt.toNat b).setPCnt (s.pCnt + 1)).heldBytes = s.heldBytes ++ [b] := by
  have hnext : (s.pCnt + 1).toNat = s.pCnt.toNat + 1 := by bv_omega
  have hlen : s.pCnt.toNat < (s.pBuf.toList.set s.pCnt.toNat b).length := by simpa using h
  rw [State.heldBytes, State.setPCnt_pCnt, State.setPCnt_pBuf, State.setPBuf_pBuf, hnext, Vector.toList_setIfInBounds,
    List.take_succ_eq_append_getElem hlen, List.take_set_of_le le_rfl, List.getElem_set_self]
  rfl

/-! ### The events on POUT -/

theorem poutBytes_append (evs evs' : List Event) : poutBytes (evs ++ evs') = poutBytes evs ++ poutBytes evs' :=
  List.filterMap_append

theorem poutBytes_map_pout (bs : List Byte) : poutBytes (bs.map .pout) = bs := by
  rw [poutBytes, List.filterMap_map]
  exact List.filterMap_some

theorem poutBytes_eq_nil {evs : List Event} (h : ∀ e ∈ evs, e.unit ≠ .packer) : poutBytes evs = [] := by
  refine List.filterMap_eq_nil_iff.mpr fun e he => ?_
  cases e with
  | pout b => exact absurd rfl (h _ he)
  | _ => rfl

/-- From `s` to `t` the bytes `bs` are emitted on POUT, whatever else is emitted between them. -/
def EmitsPout (s t : State) (bs : List Byte) : Prop := ∃ evs, Emits s t evs ∧ poutBytes evs = bs

theorem EmitsPout.silent {s t : State} (h : t.out = s.out) : EmitsPout s t [] :=
  ⟨[], h.trans (List.append_nil _).symm, rfl⟩

/-- More events after the bytes `bs`. -/
theorem EmitsPout.emits {s t r : State} {bs : List Byte} (h : EmitsPout s t bs) {evs : List Event} (h' : Emits t r evs) :
    EmitsPout s r (bs ++ poutBytes evs) := by
  obtain ⟨before, hemits, rfl⟩ := h
  exact ⟨before ++ evs, (hemits.append h').trans (List.append_assoc _ _ _), poutBytes_append _ _⟩

theorem EmitsPout.pouts {s t r : State} {bs bs' : List Byte} (h : EmitsPout s t bs) (h' : Emits t r (bs'.map .pout)) :
    EmitsPout s r (bs ++ bs') := by
  rw [← poutBytes_map_pout bs']
  exact h.emits h'

/-! ### The stream -/

/-- The packer, as PSTART from `s` and then the bytes `u` leave it in `t`: the full groups of `u` are emitted, packed, and
the rest of `u` is held. -/
structure PackedSince (s : State) (u : List Byte) (t : State) : Prop where
  bound : t.pCnt.toNat ≤ 6
  groups : ∃ full, full.length % 7 = 0 ∧ u = full ++ t.heldBytes ∧ EmitsPout s t (pack full)

theorem packedSince_pstart (s : State) : PackedSince s [] (s.setPCnt 0) where
  bound := Nat.zero_le 6
  groups := ⟨[], rfl, (heldBytes_of_pCnt_zero rfl).symm, .silent rfl⟩

/-- A command of another unit leaves the packer where it was. -/
theorem PackedSince.after_other_unit {s t : State} {u : List Byte} (h : PackedSince s u t) {i : Instr}
    (hreset : i ≠ .reset) (hi : unitOf i ≠ some .packer) : ∃ r, exec i t = .next r ∧ PackedSince s u r := by
  obtain ⟨full, hfull, hu, hemitted⟩ := h.groups
  obtain ⟨r, evs, hexec, hsame, hemits, hother⟩ := exec_of_other_unit hreset hi t
  have hpout := hemitted.emits hemits
  rw [poutBytes_eq_nil hother, List.append_nil] at hpout
  refine ⟨r, hexec, ?_⟩
  rw [← hsame] at hpout ⊢
  exact ⟨h.bound, full, hfull, hu, hpout⟩

/-- PBYTE adds its byte to the stream: to those held, or as the last of a group of seven. -/
theorem PackedSince.after_pbyte {s t : State} {u : List Byte} (h : PackedSince s u t) (b : Byte) :
    ∃ r, exec (.pbyte b) t = .next r ∧ PackedSince s (u ++ [b]) r := by
  obtain ⟨full, hfull, rfl, hemitted⟩ := h.groups
  obtain ⟨hcnt, he⟩ | ⟨hcnt, he⟩ := exec_pbyte_cases b t
  · have hnext : (t.pCnt + 1).toNat ≤ 6 := by bv_omega
    refine ⟨_, he, hnext, full, hfull, ?_, hemitted⟩
    rw [heldBytes_hold hcnt, List.append_assoc]
  · have hgroup : (t.heldBytes ++ [b]).length = 7 := by
      rw [List.length_append, length_heldBytes t h.bound, List.length_singleton]
      exact congrArg (· + 1) (le_antisymm h.bound hcnt)
    have hpack : pack (full ++ (t.heldBytes ++ [b])) = pack full ++ packGroup (t.heldBytes ++ [b]) := by
      rw [pack_append hfull, pack_eq_packGroup (List.concat_ne_nil _ _) hgroup.le]
    rw [← heldBytes_of_full hcnt] at he
    refine ⟨_, he, Nat.zero_le 6, full ++ (t.heldBytes ++ [b]), ?_, ?_, ?_⟩
    · rw [List.length_append, hgroup]
      omega
    · rw [heldBytes_of_pCnt_zero (s := State.setPCnt _ 0) rfl, List.append_nil, List.append_assoc]
    · rw [hpack]
      exact hemitted.pouts rfl

/-- PFLUSH completes the packed buffer. -/
theorem PackedSince.after_pflush {s t : State} {u : List Byte} (h : PackedSince s u t) :
    ∃ r, exec .pflush t = .next r ∧ EmitsPout s r (pack u) ∧ r.pCnt = 0 := by
  obtain ⟨full, hfull, rfl, hemitted⟩ := h.groups
  obtain ⟨hzero, he⟩ | ⟨hpos, he⟩ := exec_pflush_cases t
  · refine ⟨t, he, ?_, hzero⟩
    rwa [heldBytes_of_pCnt_zero hzero, List.append_nil]
  · have hlen := length_heldBytes t h.bound
    have hne : t.heldBytes ≠ [] := List.ne_nil_of_length_pos (by bv_omega)
    refine ⟨_, he, ?_, rfl⟩
    rw [pack_append hfull, pack_eq_packGroup hne (by omega)]
    exact hemitted.pouts rfl

theorem execAll_concat_of_next {is : List Instr} {i : Instr} {s t r : State} (h : execAll is s = .next t)
    (hi : exec i t = .next r) : execAll (is ++ [i]) s = .next r := by
  induction is generalizing s with
  | nil =>
    cases h
    rw [List.nil_append, execAll_cons_of_next hi, execAll]
  | cons j is ih =>
    obtain ⟨t', hj, -⟩ := exec_effect j s
    rw [execAll_cons_of_next hj] at h
    rw [List.cons_append, execAll_cons_of_next hj]
    exact ih h

/-- The commands of a stream, whose commands of unit `w` bring the bytes `q` in order, keep what each of its commands keeps of
the bytes brought so far. -/
theorem execAll_stream {P : List Byte → State → Prop} {w : FunctionalUnit} {mk : Byte → Instr}
    (hother : ∀ {u t}, P u t → ∀ {i}, i ≠ .reset → unitOf i ≠ some w → ∃ r, exec i t = .next r ∧ P u r)
    (hbyte : ∀ {u t}, P u t → ∀ b, ∃ r, exec (mk b) t = .next r ∧ P (u ++ [b]) r)
    (is : List Instr) {t : State} {u q : List Byte} (h : P u t)
    (hbytes : is.filter (fun i => unitOf i = some w) = q.map mk) (hreset : .reset ∉ is) :
    ∃ r, execAll is t = .next r ∧ P (u ++ q) r := by
  induction is generalizing t u q with
  | nil =>
    obtain rfl : q = [] := List.map_eq_nil_iff.mp hbytes.symm
    rw [List.append_nil]
    exact ⟨t, rfl, h⟩
  | cons i is ih =>
    obtain ⟨hi, his⟩ := not_or.mp (mt List.mem_cons.mpr hreset)
    by_cases hunit : unitOf i = some w
    · rw [List.filter_cons, if_pos (decide_eq_true hunit)] at hbytes
      obtain ⟨b, q, rfl, rfl, hrest⟩ := List.map_eq_cons_iff.mp hbytes.symm
      obtain ⟨r, hexec, hr⟩ := hbyte h b
      rw [execAll_cons_of_next hexec, List.append_cons]
      exact ih hr hrest.symm his
    · rw [List.filter_cons, if_neg (mt of_decide_eq_true hunit)] at hbytes
      obtain ⟨r, hexec, hr⟩ := hother h (Ne.symm hi) hunit
      rw [execAll_cons_of_next hexec]
      exact ih hr hbytes his

/-- Settles O49: PBYTE emits the full groups of what came so far and holds the rest, which PFLUSH emits. -/
theorem packStreamIsPack : Obligations.PackStreamIsPack := by
  intro s u is hbytes hreset
  obtain ⟨t, hrun, ht⟩ :=
    execAll_stream (P := PackedSince s) PackedSince.after_other_unit PackedSince.after_pbyte is (packedSince_pstart s)
      hbytes hreset
  obtain ⟨r, hflush, ⟨evs, hemits, hpout⟩, hcnt⟩ := ht.after_pflush
  refine ⟨r, (execAll_cons_of_next (exec_pstart s) _).trans (execAll_concat_of_next hrun hflush), ⟨evs, hemits.symm⟩, ?_,
    hcnt⟩
  rw [hemits, List.drop_left, hpout]
  rfl

end Sys2Proof.Machine
end

section
/-! PROOF. The round trips between `pack` and `unpack` (R196, R197), one run of up to 8 bytes at a time. -/

namespace Sys2Proof.Machine

/-! ### The runs of `unpack` -/

theorem unpack_nil : unpack [] = [] := rfl

/-- Full runs are unpacked by themselves, whatever follows. -/
theorem unpack_append {p : List Byte} (h : p.length % 8 = 0) (q : List Byte) : unpack (p ++ q) = unpack p ++ unpack q := by
  induction q using List.reverseRecOn with
  | nil => rw [List.append_nil, unpack_nil, List.append_nil]
  | append_singleton q b ih =>
    have hmod : (p ++ q).length % 8 = q.length % 8 := by
      rw [List.length_append]
      omega
    have hplace : 8 * ((p ++ q).length / 8) = p.length + 8 * (q.length / 8) := by
      rw [List.length_append]
      omega
    have hnext : unpackNext (p ++ q) b = unpackNext q b := by
      rw [unpackNext, unpackNext, hmod, hplace, List.getD_append_right _ _ _ _ (Nat.le_add_right _ _), Nat.add_sub_cancel_left]
    rw [← List.append_assoc, unpack_concat, ih, hnext, unpack_concat, List.append_assoc]

/-- One run, full or not: each data byte with its high bit (R160). -/
theorem unpack_run (hb : Byte) {ds : List Byte} (h : ds.length ≤ 7) :
    unpack (hb :: ds) = ds.mapIdx fun j d => unpackByte hb (j + 1) d := by
  induction ds using List.reverseRecOn with
  | nil => exact (unpack_concat [] hb).trans List.mapIdx_nil.symm
  | append_singleton ds d ih =>
    rw [List.length_append, List.length_singleton] at h
    have hpos : (hb :: ds).length % 8 = ds.length + 1 := Nat.mod_eq_of_lt (Nat.lt_succ_of_le h)
    have hrun : (hb :: ds).length / 8 = 0 := Nat.div_eq_of_lt (Nat.lt_succ_of_le h)
    rw [← List.cons_append, unpack_concat, ih (by omega), unpackNext, hpos, if_neg (Nat.succ_ne_zero _), hrun,
      List.mapIdx_concat]
    rfl

/-! ### Decode after encode -/

/-- Unpacking puts back the bit that packing moved to the high-bits byte (R196). -/
theorem unpackByte_highBits {grp : List Byte} {j : Nat} (hlen : grp.length ≤ 7) (hj : j < grp.length) :
    unpackByte (highBits grp) (j + 1) (grp[j] &&& 0x7F#8) = grp[j] := by
  refine BitVec.eq_of_getLsbD_eq fun k hk => ?_
  rw [getLsbD_unpackByte _ _ _ _ (by omega) (by omega), Nat.add_sub_cancel, getLsbD_highBits_of_lt (by omega) hj,
    getLsbD_and_0x7F]
  by_cases h7 : k = 7
  · simp [h7]
  · have hlt : k < 7 := by omega
    simp [h7, hlt]

theorem unpack_packGroup {grp : List Byte} (h : grp.length ≤ 7) : unpack (packGroup grp) = grp := by
  rw [packGroup, unpack_run _ (by rwa [List.length_map])]
  refine List.ext_getElem (by simp) fun j _ hj => ?_
  rw [List.getElem_mapIdx, List.getElem_map]
  exact unpackByte_highBits h hj

/-- Settles O51: by induction on the groups; `unpack` reads each packed group as one run. -/
theorem unpackAfterPack : Obligations.UnpackAfterPack := fun u => by
  induction u using groups_induction 7 (by decide) with
  | short u hlen =>
    obtain rfl | hne := eq_or_ne u []
    · rfl
    · rw [pack_eq_packGroup hne hlen.le, unpack_packGroup hlen.le]
  | group grp v hlen ih =>
    have hrun : (packGroup grp).length % 8 = 0 := by
      rw [length_packGroup, hlen]
    rw [pack_group_append hlen, unpack_append hrun, unpack_packGroup hlen.le, ih]

/-! ### Encode after decode -/

theorem isPacked_append {p q : List Byte} : IsPacked (p ++ q) ↔ IsPacked p ∧ IsPacked q := List.forall_mem_append

theorem isPacked_cons {b : Byte} {p : List Byte} : IsPacked (b :: p) ↔ b.toNat < 0x80 ∧ IsPacked p := List.forall_mem_cons

/-- Packing an unpacked byte drops its high bit again. -/
theorem and_0x7F_unpackByte {hb d : Byte} {pos : Nat} (hpos : 1 ≤ pos) (hpos7 : pos ≤ 7) (hd : d.toNat < 0x80) :
    unpackByte hb pos d &&& 0x7F#8 = d := by
  have hd7 := (toNat_lt_0x80_iff d).mp hd
  refine BitVec.eq_of_getLsbD_eq fun k hk => ?_
  rw [getLsbD_and_0x7F, getLsbD_unpackByte _ _ _ _ hpos hpos7]
  by_cases h7 : k = 7
  · rw [h7, hd7]
    exact Bool.and_false _
  · have hlt : k < 7 := by omega
    simp [h7, hlt]

/-- Bit 7 of an unpacked byte is the bit of the high-bits byte at its position. -/
theorem getLsbD_seven_unpackByte {hb d : Byte} {pos : Nat} (hpos : 1 ≤ pos) (hpos7 : pos ≤ 7) (hd : d.toNat < 0x80) :
    (unpackByte hb pos d).getLsbD 7 = hb.getLsbD (pos - 1) := by
  rw [getLsbD_unpackByte _ _ _ _ hpos hpos7, (toNat_lt_0x80_iff d).mp hd, Bool.false_or, decide_eq_true rfl, Bool.true_and]

/-- A run whose unused high bits are 0 is the packed group of what it unpacks to (R197). -/
theorem packGroup_unpack_run {hb : Byte} {ds : List Byte} (hlen : ds.length ≤ 7) (hds : IsPacked ds)
    (hhb : hb.toNat < 2 ^ ds.length) : packGroup (unpack (hb :: ds)) = hb :: ds := by
  have hunused := (toNat_lt_two_pow_iff hb ds.length).mp hhb
  rw [unpack_run hb hlen, packGroup]
  congr 1
  case e_head =>
    refine BitVec.eq_of_getLsbD_eq fun k _ => ?_
    by_cases hk : k < ds.length
    · rw [getLsbD_highBits_of_lt (by rw [List.length_mapIdx]; omega) (by rwa [List.length_mapIdx]), List.getElem_mapIdx,
        getLsbD_seven_unpackByte (by omega) (by omega) (hds _ (List.getElem_mem hk)), Nat.add_sub_cancel]
    · rw [getLsbD_highBits_of_length_le (by rw [List.length_mapIdx]; omega), hunused k (Nat.not_lt.mp hk)]
  case e_tail =>
    refine List.ext_getElem (by simp) fun j _ hj => ?_
    rw [List.getElem_map, List.getElem_mapIdx, and_0x7F_unpackByte (by omega) (by omega) (hds _ (List.getElem_mem hj))]

theorem pack_unpack_run {hb : Byte} {ds : List Byte} (hne : ds ≠ []) (hlen : ds.length ≤ 7) (hds : IsPacked ds)
    (hhb : hb.toNat < 2 ^ ds.length) : pack (unpack (hb :: ds)) = hb :: ds := by
  have hlength : (unpack (hb :: ds)).length = ds.length := by rw [unpack_run hb hlen, List.length_mapIdx]
  have hsome : unpack (hb :: ds) ≠ [] := List.ne_nil_of_length_pos (hlength ▸ List.length_pos_iff.mpr hne)
  rw [pack_eq_packGroup hsome (hlength.trans_le hlen), packGroup_unpack_run hlen hds hhb]

/-- Full runs unpack to full groups. -/
theorem pack_unpack_append {p : List Byte} (h : p.length % 8 = 0) (q : List Byte) :
    pack (unpack (p ++ q)) = pack (unpack p) ++ pack (unpack q) := by
  rw [unpack_append h, pack_append]
  rw [length_unpack]
  omega

/-- Packed buffers of full runs are given back (R197). -/
theorem pack_unpack_of_full_runs {p : List Byte} (hp : IsPacked p) (h : p.length % 8 = 0) : pack (unpack p) = p := by
  induction p using groups_induction 8 (by decide) with
  | short p hlen =>
    obtain rfl : p = [] := List.eq_nil_of_length_eq_zero (by omega)
    rfl
  | group run rest hlen ih =>
    obtain ⟨hrun, hrest⟩ := isPacked_append.mp hp
    rw [List.length_append] at h
    obtain ⟨hb, ds, rfl⟩ := List.exists_cons_of_length_eq_add_one hlen
    obtain ⟨hhb, hds⟩ := isPacked_cons.mp hrun
    have hseven : ds.length = 7 := Nat.succ.inj hlen
    have hne : ds ≠ [] := List.ne_nil_of_length_pos (by omega)
    rw [pack_unpack_append (by omega), ih hrest (by omega), pack_unpack_run hne hseven.le hds (hseven ▸ hhb)]

/-- And so is a packed buffer whose last run has a data byte and no unused high bit set (R197). -/
theorem pack_unpack_of_last_run {p : List Byte} (hp : IsPacked p) (hlast : 2 ≤ p.length % 8)
    (hhb : (p.getD (8 * (p.length / 8)) 0).toNat < 2 ^ (p.length % 8 - 1)) : pack (unpack p) = p := by
  obtain ⟨full, run, rfl, hfull, hrun⟩ : ∃ full run, p = full ++ run ∧ full.length = 8 * (p.length / 8) ∧
      run.length = p.length % 8 :=
    ⟨p.take (8 * (p.length / 8)), p.drop (8 * (p.length / 8)), (List.take_append_drop _ _).symm,
      List.length_take_of_le (Nat.mul_div_le _ _), by rw [List.length_drop]; omega⟩
  obtain ⟨hpfull, hprun⟩ := isPacked_append.mp hp
  rw [← hfull, ← hrun, List.getD_append_right _ _ _ _ le_rfl, Nat.sub_self] at hhb
  cases run with
  | nil =>
    rw [List.length_nil] at hrun
    omega
  | cons hb ds =>
    obtain ⟨-, hds⟩ := isPacked_cons.mp hprun
    rw [List.length_cons] at hrun hhb
    have hne : ds ≠ [] := List.ne_nil_of_length_pos (by omega)
    rw [pack_unpack_append (by omega), pack_unpack_of_full_runs hpfull (by omega),
      pack_unpack_run (hb := hb) hne (by omega) hds hhb]

/-- A lone high-bits byte is lost: no packed buffer ends with one (R197). -/
theorem length_pack_mod_ne_one (u : List Byte) : (pack u).length % 8 ≠ 1 := by
  rw [length_pack]
  omega

/-- Settles O52: by runs where `p` is given back; where it is not, no `pack` has the shape of `p`. -/
theorem packAfterUnpack : Obligations.PackAfterUnpack :=
  ⟨fun _ => pack_unpack_of_full_runs, fun _ => pack_unpack_of_last_run,
    fun _ hlone heq => length_pack_mod_ne_one _ (heq ▸ hlone), fun _ hnot heq => hnot (heq ▸ isPacked_pack _), by decide,
    by decide⟩

end Sys2Proof.Machine
end

section
/-! PROOF. The frame assembler's commands, one at a time (R221 to R228, R230). -/

namespace Sys2Proof.Machine

/-! ### The registers that the updates of FEED write -/

@[simp] theorem startFrame_rx (s : State) (b : Byte) : (startFrame s b).rx = true := rfl

@[simp] theorem appendByte_rx (s : State) (b : Byte) : (appendByte s b).rx = s.rx := rfl

@[simp] theorem completeFrame_rx (s : State) (b : Byte) : (completeFrame s b).rx = false := rfl

@[simp] theorem completeFrame_fv (s : State) (b : Byte) : (completeFrame s b).fv = true := rfl

@[simp] theorem abortFrame_rx (s : State) (c : ErrCode) : (abortFrame s c).rx = false := rfl

/-! ### FEED in each case -/

theorem encode_feedData (b : Byte) : encode (.feedData b) = 0x100000#24 ||| b.setWidth 24 := encode_feedStatus b

theorem exec_feedData_of_idle {s : State} (hrx : s.rx = false) (b : Byte) : exec (.feedData b) s = .next s :=
  if_neg (Bool.eq_false_iff.mp hrx)

theorem exec_feedEox_of_idle {s : State} (hrx : s.rx = false) : exec .feedEox s = .next s :=
  if_neg (Bool.eq_false_iff.mp hrx)

theorem exec_feedStatus_of_idle {s : State} (hrx : s.rx = false) (b : Byte) : exec (.feedStatus b) s = .next s :=
  if_neg (Bool.eq_false_iff.mp hrx)

theorem exec_feedStatus_of_receiving {s : State} (hrx : s.rx = true) (b : Byte) :
    exec (.feedStatus b) s = .next (abortFrame s .protocol) := if_pos hrx

theorem exec_feedData_of_room {s : State} (hrx : s.rx = true) (hlen : LenBelowMax s) (b : Byte) :
    exec (.feedData b) s = .next (appendByte s b) := (if_pos hrx).trans (if_pos ((hasRoom_iff s).mpr hlen))

theorem exec_feedEox_of_room {s : State} (hrx : s.rx = true) (hlen : LenBelowMax s) :
    exec .feedEox s = .next (completeFrame s eoxByte) := (if_pos hrx).trans (if_pos ((hasRoom_iff s).mpr hlen))

theorem hasRoom_ne_true_of_lenAtMax {s : State} (hlen : LenAtMax s) : ¬ hasRoom s.config s.len = true :=
  Bool.eq_false_iff.mp ((hasRoom_eq_false_iff s).mpr hlen)

theorem exec_feedData_of_full {s : State} (hrx : s.rx = true) (hlen : LenAtMax s) (b : Byte) :
    exec (.feedData b) s = .next (abortFrame s .overflow) :=
  (if_pos hrx).trans (if_neg (hasRoom_ne_true_of_lenAtMax hlen))

theorem exec_feedEox_of_full {s : State} (hrx : s.rx = true) (hlen : LenAtMax s) :
    exec .feedEox s = .next (abortFrame s .overflow) :=
  (if_pos hrx).trans (if_neg (hasRoom_ne_true_of_lenAtMax hlen))

/-! ### The statements about one FEED -/

theorem memRead_of_mem_eq {s t : State} {a : Nat} {v : Byte} (h : t.mem = memWrite s.mem a v) : memRead t.mem a = v := by
  rw [h, memRead_memWrite_self]

theorem sameMemBut_of_mem_eq {s t : State} {a : Nat} {v : Byte} (h : t.mem = memWrite s.mem a v) : SameMemBut a s t :=
  fun _ hne => by rw [h, memRead_memWrite_of_ne _ _ hne]

/-- Settles O23: the byte is written at index 0, whatever stood there. -/
theorem feedSoxStartsAFrame : Obligations.FeedSoxStartsAFrame :=
  ⟨by decide, fun s => ⟨_, exec_feedSox s, memRead_of_mem_eq (startFrame_mem s soxByte), rfl,
    rfl, rfl, sameMemBut_of_mem_eq (startFrame_mem s soxByte), rfl, ⟨rfl, rfl⟩, ⟨rfl, rfl⟩,
    (List.append_nil _).symm, ⟨rfl, rfl⟩⟩⟩

/-- Settles O24: with room the byte is written at LEN, and the frame is held. -/
theorem feedEoxCompletesTheFrame : Obligations.FeedEoxCompletesTheFrame :=
  ⟨by decide, fun s hrx hlen => ⟨_, exec_feedEox_of_room hrx hlen, memRead_of_mem_eq (completeFrame_mem s eoxByte), rfl,
    rfl, rfl, sameMemBut_of_mem_eq (completeFrame_mem s eoxByte), rfl, ⟨rfl, rfl⟩, ⟨rfl, rfl⟩,
    (List.append_nil _).symm, ⟨rfl, rfl⟩⟩⟩

/-- Settles O25: with room the byte is written at LEN, and the frame stays in progress. -/
theorem feedDataAppends : Obligations.FeedDataAppends :=
  ⟨encode_feedData, fun s b hrx hlen => ⟨_, exec_feedData_of_room hrx hlen b, memRead_of_mem_eq (appendByte_mem s b),
    rfl, rfl, rfl, sameMemBut_of_mem_eq (appendByte_mem s b), rfl, ⟨rfl, rfl⟩, ⟨rfl, rfl⟩,
    (List.append_nil _).symm, ⟨rfl, rfl⟩⟩⟩

/-- What aborting a frame changes, and what it leaves (R224, R227). -/
theorem abortFrame_changes {s t : State} {c : ErrCode} (hrx : s.rx = true) (ht : t = abortFrame s c) :
    Emits s t [.err c] ∧ t.lastErr = c ∧ t.rx = false ∧ t.len = 0 ∧ t.fv = s.fv ∧ (FrameInv s → t.fv = false) ∧
      SameMem s t ∧ SameUnpacker s t ∧ SamePacker s t ∧ SameHost s t := by
  subst ht
  exact ⟨rfl, rfl, rfl, rfl, rfl, fun h => h.fv_of_rx hrx, fun _ => rfl, ⟨rfl, rfl⟩, ⟨rfl, rfl⟩, ⟨rfl, rfl⟩⟩

/-- Settles O26: while RECEIVING a status byte aborts the frame, whatever LEN is. -/
theorem feedStatusAbortsTheFrame : Obligations.FeedStatusAbortsTheFrame :=
  ⟨encode_feedStatus, fun _ b hrx => ⟨_, exec_feedStatus_of_receiving hrx b, abortFrame_changes hrx rfl⟩⟩

/-- Settles O27: in IDLE none of the three classes has an effect. -/
theorem feedInIdleIsIgnored : Obligations.FeedInIdleIsIgnored := fun _ b hrx =>
  ⟨exec_feedData_of_idle hrx b, exec_feedEox_of_idle hrx, exec_feedStatus_of_idle hrx b⟩

/-- Settles O28: of the four classes only EOX and data ask for room, and an unbounded memory always has it. -/
theorem feedAtCapacityOverflows : Obligations.FeedAtCapacityOverflows := by
  refine ⟨?_, fun s hrx _ => ⟨?_, fun b => ?_⟩, fun s => not_lenAtMax_of_unbounded⟩
  · rintro s i hrx hlen (rfl | ⟨b, rfl⟩)
    · exact ⟨_, exec_feedEox_of_full hrx hlen, abortFrame_changes hrx rfl⟩
    · exact ⟨_, exec_feedData_of_full hrx hlen b, abortFrame_changes hrx rfl⟩
  · exact ⟨_, exec_feedSox s, (List.append_nil _).symm, rfl, rfl, rfl⟩
  · exact ⟨_, exec_feedStatus_of_receiving hrx b, rfl, rfl⟩

/-! ### TAKE -/

theorem getElem?_memBytes {m : Memory} {n i : Nat} (h : i < n) : (memBytes m n)[i]? = some (memRead m i) := by
  rw [memBytes, List.getElem?_map, List.getElem?_range h]
  rfl

/-- Settles O31: a held frame is the first LEN bytes of MEM, and TAKE does not write MEM. -/
theorem takeReturnsTheCompletedFrame : Obligations.TakeReturnsTheCompletedFrame := by
  refine ⟨by decide, fun s => ?_⟩
  obtain ⟨hfv, he⟩ | ⟨hfv, he⟩ := exec_take_cases s
  · refine ⟨_, he, rfl, fun _ => rfl, rfl, ⟨rfl, rfl⟩, ⟨rfl, rfl⟩, ⟨rfl, rfl⟩, ?_⟩
    rw [if_pos hfv]
    exact ⟨rfl, rfl, _, rfl, length_memBytes _ _, fun _ => getElem?_memBytes⟩
  · refine ⟨_, he, rfl, fun _ => rfl, rfl, ⟨rfl, rfl⟩, ⟨rfl, rfl⟩, ⟨rfl, rfl⟩, ?_⟩
    rw [if_neg (Bool.eq_false_iff.mp hfv)]
    exact ⟨rfl, rfl, rfl⟩

end Sys2Proof.Machine
end

section
/-! PROOF. FEED as the one function of R229, and runs of FEEDs: in IDLE (R234), and a frame up to its end (R227). -/

namespace Sys2Proof.Machine

/-! ### The function of R229 -/

theorem feedByte_sox (s : State) : feedByte soxByte s = startFrame s soxByte := rfl

theorem feedByte_of_idle {b : Byte} {s : State} (hsox : b ≠ soxByte) (hrx : s.rx = false) : feedByte b s = s :=
  (if_neg hsox).trans (if_pos hrx)

/-- The branches of R229 while RECEIVING, each as the assembler's update. -/
theorem feedByte_of_receiving {b : Byte} {s : State} (hsox : b ≠ soxByte) (hrx : s.rx = true) :
    feedByte b s =
      if b ≠ eoxByte ∧ b &&& statusMask ≠ 0 then abortFrame s .protocol
      else if hasRoom s.config s.len = false then abortFrame s .overflow
      else if b = eoxByte then completeFrame s eoxByte
      else appendByte s b :=
  (if_neg hsox).trans (if_neg (ne_false_of_eq_true hrx))

/-- A byte with bit 7 clear is neither SOX nor EOX (R105). -/
theorem ne_frameBytes_of_and_statusMask {b : Byte} (h : b &&& statusMask = 0) : b ≠ soxByte ∧ b ≠ eoxByte := by
  constructor
  · rintro rfl
    exact absurd h (by decide)
  · rintro rfl
    exact absurd h (by decide)

/-- Each class command takes the one branch of R229 that applies to its byte. -/
theorem exec_feedInstr_eq_feedByte (b : Byte) (s : State) : exec (feedInstr b) s = .next (feedByte b s) := by
  obtain ⟨rfl, -, hi⟩ | ⟨rfl, -, hi⟩ | ⟨-, hi, hwf⟩ | ⟨-, hi, hwf⟩ := feedInstr_cases b
  · rw [hi, exec_feedSox, feedByte_sox]
  · have hsox : eoxByte ≠ soxByte := by decide
    rw [hi]
    obtain ⟨hrx, he⟩ | ⟨hrx, hlen, he⟩ | ⟨hrx, hlen, he⟩ := exec_feedEox_cases s
    · rw [he, feedByte_of_idle hsox hrx]
    · rw [he, feedByte_of_receiving hsox hrx, (hasRoom_iff s).mpr hlen]
      rfl
    · rw [he, feedByte_of_receiving hsox hrx, (hasRoom_eq_false_iff s).mpr hlen]
      rfl
  · obtain ⟨hmask, hsox, heox⟩ := (wellFormed_feedStatus_iff b).mp hwf
    rw [hi]
    obtain ⟨hrx, he⟩ | ⟨hrx, he⟩ := exec_feedStatus_cases b s
    · rw [he, feedByte_of_idle hsox hrx]
    · rw [he, feedByte_of_receiving hsox hrx, if_pos ⟨heox, hmask⟩]
  · have hmask : b &&& statusMask = 0 := of_decide_eq_true hwf
    obtain ⟨hsox, heox⟩ := ne_frameBytes_of_and_statusMask hmask
    have hdata : ¬ (b ≠ eoxByte ∧ b &&& statusMask ≠ 0) := fun ⟨_, hne⟩ => hne hmask
    rw [hi]
    obtain ⟨hrx, he⟩ | ⟨hrx, hlen, he⟩ | ⟨hrx, hlen, he⟩ := exec_feedData_cases b s
    · rw [he, feedByte_of_idle hsox hrx]
    · rw [he, feedByte_of_receiving hsox hrx, if_neg hdata, (hasRoom_iff s).mpr hlen, if_neg (by decide), if_neg heox]
    · rw [he, feedByte_of_receiving hsox hrx, if_neg hdata, if_pos ((hasRoom_eq_false_iff s).mpr hlen)]

theorem wellFormed_feedInstr (b : Byte) : (feedInstr b).wellFormed = true := by
  obtain ⟨-, -, -, -, hwf⟩ := feedInstr_fields b
  exact hwf

/-- Settles O30: the class of the byte and the state choose the branch, and FEED keeps INV_FA as every command does. -/
theorem feedIsOneFunction : Obligations.FeedIsOneFunction := fun b s =>
  ⟨exec_feedInstr_eq_feedByte b s, fun h =>
    (effect_of_exec (exec_feedInstr_eq_feedByte b s)).frameInv (wellFormed_feedInstr b) h.config h.frame⟩

/-! ### A run that does nothing -/

/-- Commands that each leave `s` as it is leave it so together. -/
theorem execAll_of_fixed {is : List Instr} {s : State} (h : ∀ i ∈ is, exec i s = .next s) : execAll is s = .next s := by
  induction is with
  | nil => rfl
  | cons i is ih =>
    obtain ⟨hi, his⟩ := List.forall_mem_cons.mp h
    rw [execAll_cons_of_next hi, ih his]

/-- Settles O36: in IDLE each byte but SOX leaves the state as it is, so all of them do. -/
theorem idleWaitsForTheNextStart : Obligations.IdleWaitsForTheNextStart := fun s bs hrx hsox =>
  execAll_of_fixed (List.forall_mem_map.mpr fun b hb => by
    rw [exec_feedInstr_eq_feedByte, feedByte_of_idle (hsox b hb) hrx])

/-! ### A frame up to its end -/

theorem lenBelowMax_iff {s : State} {max : Nat} (hmax : s.config.maxFrameLen = .bytes max) :
    LenBelowMax s ↔ s.len < max := by
  simp [LenBelowMax, hmax]

theorem lenAtMax_iff {s : State} {max : Nat} (hmax : s.config.maxFrameLen = .bytes max) : LenAtMax s ↔ max ≤ s.len := by
  simp [LenAtMax, hmax]

/-- The frame `f` fed whole, its EOX included, has left `t` in IDLE: holding `f` when MAX_FRAME_LEN has room for it, and
after one overflow otherwise. What was emitted before the frame is `before`. -/
def FrameEnded (max : Nat) (f : List Byte) (before : List Event) (t : State) : Prop :=
  t.rx = false ∧
    if f.length ≤ max then t.fv = true ∧ memBytes t.mem t.len = f ∧ t.out = before
    else t.fv = false ∧ t.len = 0 ∧ t.lastErr = .overflow ∧ t.out = before ++ [.err .overflow]

theorem frameEnded_completeFrame {s : State} {max : Nat} (hlen : s.len < max) :
    FrameEnded max (memBytes s.mem s.len ++ [eoxByte]) s.out (completeFrame s eoxByte) := by
  have hfits : (memBytes s.mem s.len ++ [eoxByte]).length ≤ max := by simpa using hlen
  rw [FrameEnded, if_pos hfits, completeFrame_mem, completeFrame_len, memBytes_append]
  exact ⟨rfl, rfl, rfl, rfl⟩

/-- A frame that goes on past a full memory has overflowed. -/
theorem frameEnded_abortFrame {s : State} {max : Nat} (hfv : s.fv = false) (hlen : max ≤ s.len) {rest : List Byte}
    (hrest : rest ≠ []) : FrameEnded max (memBytes s.mem s.len ++ rest) s.out (abortFrame s .overflow) := by
  have hpos := List.length_pos_iff.mpr hrest
  have hlong : ¬ (memBytes s.mem s.len ++ rest).length ≤ max := by
    rw [List.length_append, length_memBytes]
    omega
  rw [FrameEnded, if_neg hlong]
  exact ⟨rfl, hfv, rfl, rfl, rfl⟩

/-- The data bytes of a frame and its EOX, fed while RECEIVING: each byte goes to MEM until the memory is full, and what
comes after an overflow is ignored. -/
theorem execAll_data_eox {max : Nat} (ds : List Byte) {s : State} (hmax : s.config.maxFrameLen = .bytes max)
    (hrx : s.rx = true) (hfv : s.fv = false) :
    ∃ t, execAll (ds.map .feedData ++ [.feedEox]) s = .next t ∧
      FrameEnded max (memBytes s.mem s.len ++ (ds ++ [eoxByte])) s.out t := by
  induction ds generalizing s with
  | nil =>
    by_cases hlen : s.len < max
    · exact ⟨_, execAll_cons_of_next (exec_feedEox_of_room hrx ((lenBelowMax_iff hmax).mpr hlen)) [],
        frameEnded_completeFrame hlen⟩
    · have hlen := Nat.not_lt.mp hlen
      exact ⟨_, execAll_cons_of_next (exec_feedEox_of_full hrx ((lenAtMax_iff hmax).mpr hlen)) [],
        frameEnded_abortFrame hfv hlen (List.cons_ne_nil _ _)⟩
  | cons d ds ih =>
    rw [List.map_cons, List.cons_append]
    by_cases hlen : s.len < max
    · obtain ⟨t, hrun, ht⟩ := ih (s := appendByte s d) hmax hrx hfv
      rw [appendByte_mem, appendByte_len, memBytes_append, List.append_assoc] at ht
      exact ⟨t, (execAll_cons_of_next (exec_feedData_of_room hrx ((lenBelowMax_iff hmax).mpr hlen) d) _).trans hrun, ht⟩
    · have hlen := Nat.not_lt.mp hlen
      have hignored : ∀ i ∈ ds.map .feedData ++ [.feedEox],
          exec i (abortFrame s .overflow) = .next (abortFrame s .overflow) := by
        refine List.forall_mem_append.mpr ⟨List.forall_mem_map.mpr fun b _ => exec_feedData_of_idle rfl b, ?_⟩
        exact List.forall_mem_singleton.mpr (exec_feedEox_of_idle rfl)
      exact ⟨_, (execAll_cons_of_next (exec_feedData_of_full hrx ((lenAtMax_iff hmax).mpr hlen) d) _).trans
        (execAll_of_fixed hignored), frameEnded_abortFrame hfv hlen (List.cons_ne_nil _ _)⟩

/-- Settles O29: SOX starts a frame of one byte, and the rest of the frame is fed from there. -/
theorem framesUpToMaxComplete : Obligations.FramesUpToMaxComplete := by
  intro s max ds hmax _
  obtain ⟨t, hrun, hrx, hend⟩ := execAll_data_eox ds (s := startFrame s soxByte) hmax rfl rfl
  have hframe : memBytes (startFrame s soxByte).mem (startFrame s soxByte).len ++ (ds ++ [eoxByte]) =
      soxByte :: (ds ++ [eoxByte]) := by
    rw [startFrame_mem, startFrame_len, memBytes_append]
    rfl
  have hlen : (soxByte :: (ds ++ [eoxByte])).length = ds.length + 2 := by simp
  rw [hframe, hlen] at hend
  exact ⟨t, (execAll_cons_of_next (exec_feedSox s) _).trans hrun, hrx, hend⟩

end Sys2Proof.Machine
end

section
/-! PROOF. The frames that commands return: only TAKE returns one, the held frame, and that is a RawFrame (R230, R232). -/

namespace Sys2Proof.Machine

theorem frameEvents_append (evs evs' : List Event) : frameEvents (evs ++ evs') = frameEvents evs ++ frameEvents evs' :=
  List.filterMap_append

theorem frameEvents_eq_nil {evs : List Event} (h : ∀ e ∈ evs, e.unit ≠ .assembler) : frameEvents evs = [] := by
  refine List.filterMap_eq_nil_iff.mpr fun e he => ?_
  cases e with
  | frame f => exact absurd rfl (h _ he)
  | _ => rfl

theorem mem_frameEvents {evs : List Event} {f : List Byte} (h : .frame (some f) ∈ evs) : f ∈ frameEvents evs :=
  List.mem_filterMap.mpr ⟨_, h, rfl⟩

/-- From `s` to `t` the frames `fs` are returned, whatever else is emitted between them. -/
def ReturnsFrames (s t : State) (fs : List (List Byte)) : Prop := ∃ evs, Emits s t evs ∧ frameEvents evs = fs

theorem ReturnsFrames.silent {s t : State} (h : t.out = s.out) : ReturnsFrames s t [] :=
  ⟨[], h.trans (List.append_nil _).symm, rfl⟩

theorem ReturnsFrames.append {s t r : State} {fs fs' : List (List Byte)} (h : ReturnsFrames s t fs)
    (h' : ReturnsFrames t r fs') : ReturnsFrames s r (fs ++ fs') := by
  obtain ⟨evs, hemits, rfl⟩ := h
  obtain ⟨evs', hemits', rfl⟩ := h'
  exact ⟨evs ++ evs', (hemits.append hemits').trans (List.append_assoc _ _ _), frameEvents_append _ _⟩

theorem ReturnsFrames.mem {s t : State} {fs : List (List Byte)} (h : ReturnsFrames s t fs) {f : List Byte}
    (hf : .frame (some f) ∈ t.out.drop s.out.length) : f ∈ fs := by
  obtain ⟨evs, hemits, rfl⟩ := h
  rw [hemits, List.drop_left] at hf
  exact mem_frameEvents hf

/-- No command but TAKE returns a frame. -/
theorem returnsFrames_nil_of_ne_take {i : Instr} {s t : State} (hi : i ≠ .take) (h : exec i s = .next t) :
    ReturnsFrames s t [] := by
  by_cases hunit : unitOf i = some .assembler
  · cases i with
    | feedSox => cases h; exact .silent rfl
    | feedEox =>
      obtain ⟨-, he⟩ | ⟨-, -, he⟩ | ⟨-, -, he⟩ := exec_feedEox_cases s
      · cases he.symm.trans h; exact .silent rfl
      · cases he.symm.trans h; exact .silent rfl
      · cases he.symm.trans h; exact ⟨_, rfl, rfl⟩
    | feedData b =>
      obtain ⟨-, he⟩ | ⟨-, -, he⟩ | ⟨-, -, he⟩ := exec_feedData_cases b s
      · cases he.symm.trans h; exact .silent rfl
      · cases he.symm.trans h; exact .silent rfl
      · cases he.symm.trans h; exact ⟨_, rfl, rfl⟩
    | feedStatus b =>
      obtain ⟨-, he⟩ | ⟨-, he⟩ := exec_feedStatus_cases b s
      · cases he.symm.trans h; exact .silent rfl
      · cases he.symm.trans h; exact ⟨_, rfl, rfl⟩
    | take => exact absurd rfl hi
    | _ => cases hunit
  · obtain ⟨t', evs, hexec, hemits, hown⟩ := emitsOwnEvents i s
    cases hexec.symm.trans h
    exact ⟨evs, hemits, frameEvents_eq_nil fun e he heq => hunit (heq ▸ hown e he)⟩

/-- A command returns no frame but the one held. -/
theorem eq_memBytes_of_returned {i : Instr} {s t : State} (h : exec i s = .next t) {f : List Byte}
    (hf : .frame (some f) ∈ t.out.drop s.out.length) : s.fv = true ∧ f = memBytes s.mem s.len := by
  by_cases hi : i = .take
  · subst hi
    obtain ⟨hfv, he⟩ | ⟨-, he⟩ := exec_take_cases s
    · cases he.symm.trans h
      have hreturns : ReturnsFrames s (takeFrame s) [memBytes s.mem s.len] := ⟨_, rfl, rfl⟩
      exact ⟨hfv, List.mem_singleton.mp (hreturns.mem hf)⟩
    · cases he.symm.trans h
      have hreturns : ReturnsFrames s (s.emit [.frame none]) [] := ⟨_, rfl, rfl⟩
      exact absurd (hreturns.mem hf) List.not_mem_nil
  · exact absurd ((returnsFrames_nil_of_ne_take hi h).mem hf) List.not_mem_nil

/-- A step returns no frame but the one held before it. -/
theorem eq_memBytes_of_step_returned {s t : State} (hstep : step s = .next t) {f : List Byte}
    (hf : .frame (some f) ∈ t.out.drop s.out.length) : s.fv = true ∧ f = memBytes s.mem s.len := by
  obtain ⟨-, rfl⟩ | ⟨rest, -, rfl⟩ | ⟨-, -, rest, -, -, rfl⟩ | ⟨w, i, rest, hport, hdec, -⟩ := step_cases hstep
  · exact absurd ((ReturnsFrames.silent rfl).mem hf) List.not_mem_nil
  · exact absurd ((ReturnsFrames.silent rfl).mem hf) List.not_mem_nil
  · have hreturns : ReturnsFrames s ((s.setPort rest).raise .illegalCmd) [] := ⟨_, rfl, rfl⟩
    exact absurd (hreturns.mem hf) List.not_mem_nil
  · rw [step_word hport, stepWord, hdec] at hstep
    exact eq_memBytes_of_returned hstep hf

/-- The held frame is a RawFrame: INV_FA fixes its first and last byte and bounds the others (R16, R36). -/
theorem FrameInv.held_isRaw {s : State} (h : FrameInv s) (hfv : s.fv = true) {f : List Byte}
    (hf : f = memBytes s.mem s.len) :
    2 ≤ f.length ∧ f.head? = some soxByte ∧ f.getLast? = some eoxByte ∧
      ∀ i, 0 < i → i < f.length - 1 → ∃ b, f[i]? = some b ∧ b.toNat < 0x80 := by
  obtain ⟨htwo, hfirst, hlast, hdata⟩ := h.completed hfv
  subst hf
  rw [List.head?_eq_getElem?, List.getLast?_eq_getElem?, length_memBytes, getElem?_memBytes (by omega),
    getElem?_memBytes (by omega), hfirst, hlast]
  exact ⟨htwo, rfl, rfl, fun i hi hlt => ⟨_, getElem?_memBytes (by omega), hdata i hi hlt⟩⟩

/-- Settles O37: a step returns the held frame or none, and while RECEIVING no frame is held. -/
theorem returnedFramesAreRawFrames : Obligations.ReturnedFramesAreRawFrames := by
  refine ⟨fun s t h hstep f hf => ?_, fun s h hrx addr draw => ?_⟩
  · obtain ⟨hfv, heq⟩ := eq_memBytes_of_step_returned hstep hf
    exact h.frame.held_isRaw hfv heq
  · exact rdData_of_not_held (fun ⟨hfv, _⟩ => h.frame.exclusive ⟨hrx, hfv⟩) draw

end Sys2Proof.Machine
end

section
/-! PROOF. With a TAKE after every FEED the frames returned are those of the input (R233), one byte of the input at a
time. -/

namespace Sys2Proof.Machine

/-! ### The frames of an input, one byte at a time -/

/-- The frame in progress at the end of the input `p`: SOX and data bytes after it, up to the end. -/
def InProgress (p f : List Byte) : Prop := f <:+ p ∧ ∃ ds, f = soxByte :: ds ∧ ∀ d ∈ ds, d.toNat < 0x80

theorem isRawFrame_iff (f : List Byte) :
    isRawFrame f = true ↔ ∃ ds, f = soxByte :: (ds ++ [eoxByte]) ∧ ∀ d ∈ ds, d.toNat < 0x80 := by
  simp only [isRawFrame, Bool.and_eq_true, decide_eq_true_eq, List.all_eq_true]
  constructor
  · rintro ⟨⟨⟨hlen, hhead⟩, hlast⟩, hdata⟩
    obtain ⟨front, rfl⟩ := List.getLast?_eq_some_iff.mp hlast
    cases front with
    | nil => exact absurd hlen (by decide)
    | cons a ds =>
      obtain rfl : a = soxByte := Option.some.inj hhead
      exact ⟨ds, rfl, by simpa using hdata⟩
  · rintro ⟨ds, rfl, hdata⟩
    have hlast : (soxByte :: (ds ++ [eoxByte])).getLast? = some eoxByte := List.getLast?_concat (l := soxByte :: ds)
    exact ⟨⟨⟨by simp, rfl⟩, hlast⟩, by simpa using hdata⟩

theorem ne_sox_of_data {ds : List Byte} (h : ∀ d ∈ ds, d.toNat < 0x80) : soxByte ∉ ds :=
  fun hmem => absurd (h _ hmem) (by decide)

/-- A suffix that begins with the last `a` of a list is fixed by that. -/
theorem eq_of_suffix_of_not_mem {a : Byte} {x y p : List Byte} (hx : a ∉ x) (hy : a ∉ y) (hxp : a :: x <:+ p)
    (hyp : a :: y <:+ p) : a :: x = a :: y := by
  obtain h | h := List.suffix_or_suffix_of_suffix hxp hyp
  · exact (List.suffix_cons_iff.mp h).resolve_right fun hin => hy (hin.subset List.mem_cons_self)
  · exact ((List.suffix_cons_iff.mp h).resolve_right fun hin => hx (hin.subset List.mem_cons_self)).symm

/-- At most one RawFrame ends where the input ends, so the first one found is the one there is (R233). -/
theorem frameEndingHere_eq_some_iff {p f : List Byte} : frameEndingHere p = some f ↔ f <:+ p ∧ isRawFrame f = true := by
  have hsound : ∀ {g}, frameEndingHere p = some g → g <:+ p ∧ isRawFrame g = true := fun hg =>
    ⟨(List.mem_tails _ _).mp (List.mem_of_find?_eq_some hg), List.find?_some hg⟩
  refine ⟨hsound, fun ⟨hf, hraw⟩ => ?_⟩
  cases hfind : frameEndingHere p with
  | none => exact absurd hraw (List.find?_eq_none.mp hfind f ((List.mem_tails _ _).mpr hf))
  | some g =>
    obtain ⟨hg, hrawg⟩ := hsound hfind
    obtain ⟨ds, rfl, hds⟩ := (isRawFrame_iff f).mp hraw
    obtain ⟨es, rfl, hes⟩ := (isRawFrame_iff g).mp hrawg
    have hsox : ∀ {l : List Byte}, (∀ d ∈ l, d.toNat < 0x80) → soxByte ∉ l ++ [eoxByte] := fun hl => by
      simpa using ne_sox_of_data hl
    rw [eq_of_suffix_of_not_mem (hsox hes) (hsox hds) hg hf]

/-- A frame ends with an EOX that comes while one is in progress. -/
theorem frameEndingHere_concat_iff {p f : List Byte} {b : Byte} :
    frameEndingHere (p ++ [b]) = some f ↔ b = eoxByte ∧ ∃ g, InProgress p g ∧ f = g ++ [eoxByte] := by
  rw [frameEndingHere_eq_some_iff, isRawFrame_iff, List.suffix_concat_iff]
  constructor
  · rintro ⟨hsuffix, ds, rfl, hds⟩
    obtain ⟨g, heq, hg⟩ := hsuffix.resolve_left (List.cons_ne_nil _ _)
    obtain ⟨rfl, rfl⟩ := List.append_singleton_inj.mp ((List.cons_append ..).trans heq)
    exact ⟨rfl, _, ⟨hg, ds, rfl, hds⟩, rfl⟩
  · rintro ⟨rfl, g, ⟨hg, ds, rfl, hds⟩, rfl⟩
    exact ⟨.inr ⟨_, rfl, hg⟩, ds, rfl, hds⟩

/-- A byte begins a frame, continues the one in progress, or leaves none in progress. -/
theorem inProgress_concat_iff {p f : List Byte} {b : Byte} :
    InProgress (p ++ [b]) f ↔
      (b = soxByte ∧ f = [soxByte]) ∨ (b.toNat < 0x80 ∧ ∃ g, InProgress p g ∧ f = g ++ [b]) := by
  rw [InProgress, List.suffix_concat_iff]
  constructor
  · rintro ⟨hsuffix, ds, rfl, hds⟩
    obtain ⟨g, heq, hg⟩ := hsuffix.resolve_left (List.cons_ne_nil _ _)
    cases g with
    | nil =>
      obtain ⟨rfl, rfl⟩ := List.cons_eq_cons.mp heq
      exact .inl ⟨rfl, rfl⟩
    | cons a g =>
      obtain ⟨rfl, rfl⟩ := List.cons_eq_cons.mp heq
      obtain ⟨hdata, hb⟩ := List.forall_mem_append.mp hds
      exact .inr ⟨hb b (List.mem_singleton_self b), _, ⟨hg, g, rfl, hdata⟩, rfl⟩
  · rintro (⟨rfl, rfl⟩ | ⟨hb, g, ⟨hg, ds, rfl, hds⟩, rfl⟩)
    · exact ⟨.inr ⟨[], rfl, List.nil_suffix⟩, [], rfl, nofun⟩
    · exact ⟨.inr ⟨_, rfl, hg⟩, ds ++ [b], rfl,
        List.forall_mem_append.mpr ⟨hds, List.forall_mem_singleton.mpr hb⟩⟩

/-- The last byte of an input adds the frame that it ends, if it ends one. -/
theorem framesOf_concat (p : List Byte) (b : Byte) :
    framesOf (p ++ [b]) = framesOf p ++ (frameEndingHere (p ++ [b])).toList := by
  have hbefore : ∀ k ∈ List.range (p.length + 1), frameEndingHere ((p ++ [b]).take k) = frameEndingHere (p.take k) :=
    fun k hk => by rw [List.take_append_of_le_length (Nat.le_of_lt_succ (List.mem_range.mp hk))]
  have hlen : (p ++ [b]).length = p.length + 1 := List.length_append
  have hlast : (p ++ [b]).take (p.length + 1) = p ++ [b] := List.take_of_length_le hlen.le
  rw [framesOf, hlen, List.range_succ, List.filterMap_append, List.filterMap_congr hbefore, List.filterMap_cons, hlast]
  cases frameEndingHere (p ++ [b]) <;> rfl

/-! ### The machine along the input -/

/-- `t` stands at the end of the input `p`: it has in progress what `p` has, and holds the frame `held` and no other. -/
structure FollowsInput (p : List Byte) (held : Option (List Byte)) (t : State) : Prop where
  unbounded : t.config.maxFrameLen = .unbounded
  exclusive : ¬ (t.rx = true ∧ t.fv = true)
  inProgress : ∀ f, InProgress p f ↔ t.rx = true ∧ f = memBytes t.mem t.len
  held : ∀ f, held = some f ↔ t.fv = true ∧ f = memBytes t.mem t.len

theorem FollowsInput.fv_of_none {p : List Byte} {t : State} (h : FollowsInput p none t) : t.fv = false :=
  Bool.eq_false_iff.mpr fun hfv => nomatch (h.held _).mpr ⟨hfv, rfl⟩

theorem followsInput_nil {s : State} (hrx : s.rx = false) (hfv : s.fv = false)
    (hmax : s.config.maxFrameLen = .unbounded) : FollowsInput [] none s where
  unbounded := hmax
  exclusive := by simp [hrx]
  inProgress := by simp [InProgress, hrx]
  held := by simp [hfv]

/-- What is in progress after one more byte of the input, by the state before it. -/
theorem FollowsInput.inProgress_concat {p : List Byte} {held : Option (List Byte)} {t : State}
    (h : FollowsInput p held t) (b : Byte) (f : List Byte) :
    InProgress (p ++ [b]) f ↔
      (b = soxByte ∧ f = [soxByte]) ∨ (b.toNat < 0x80 ∧ t.rx = true ∧ f = memBytes t.mem t.len ++ [b]) := by
  simp only [inProgress_concat_iff, h.inProgress, and_assoc, exists_and_left, exists_eq_left]

/-- The frame that one more byte of the input ends, by the state before it. -/
theorem FollowsInput.frameEndingHere_concat {p : List Byte} {held : Option (List Byte)} {t : State}
    (h : FollowsInput p held t) (b : Byte) (f : List Byte) :
    frameEndingHere (p ++ [b]) = some f ↔ b = eoxByte ∧ t.rx = true ∧ f = memBytes t.mem t.len ++ [eoxByte] := by
  simp only [frameEndingHere_concat_iff, h.inProgress, and_assoc, exists_and_left, exists_eq_left]

/-- With MAX_FRAME_LEN unbounded, FEED while RECEIVING aborts, completes or continues the frame by its byte's class. -/
theorem feedByte_of_unbounded {b : Byte} {t : State} (hmax : t.config.maxFrameLen = .unbounded) (hsox : b ≠ soxByte)
    (hrx : t.rx = true) :
    (b = eoxByte ∧ feedByte b t = completeFrame t eoxByte) ∨
    (b ≠ eoxByte ∧ b.toNat < 0x80 ∧ feedByte b t = appendByte t b) ∨
    (b ≠ eoxByte ∧ ¬ b.toNat < 0x80 ∧ feedByte b t = abortFrame t .protocol) := by
  have hroom : hasRoom t.config t.len ≠ false := mt (hasRoom_eq_false_iff t).mp (not_lenAtMax_of_unbounded hmax)
  rw [feedByte_of_receiving hsox hrx, if_neg hroom]
  by_cases heox : b = eoxByte
  · exact .inl ⟨heox, by rw [if_neg fun ⟨hne, _⟩ => hne heox, if_pos heox]⟩
  by_cases hdata : b.toNat < 0x80
  · have hmask := (and_statusMask_eq_zero_iff b).mpr hdata
    exact .inr (.inl ⟨heox, hdata, by rw [if_neg fun ⟨_, hne⟩ => hne hmask, if_neg heox]⟩)
  · have hmask := (and_statusMask_ne_zero_iff b).mpr (Nat.not_lt.mp hdata)
    exact .inr (.inr ⟨heox, hdata, if_pos ⟨heox, hmask⟩⟩)

/-- A state `u` with no frame held follows the input by a byte that ends no frame, when it has in progress what the byte
leaves in progress. -/
theorem FollowsInput.concat_of_none {p : List Byte} {t u : State} (h : FollowsInput p none t) {b : Byte}
    (hconfig : u.config = t.config) (hfv : u.fv = false) (hends : ¬ (b = eoxByte ∧ t.rx = true))
    (hprog : ∀ f, InProgress (p ++ [b]) f ↔ u.rx = true ∧ f = memBytes u.mem u.len) :
    FollowsInput (p ++ [b]) (frameEndingHere (p ++ [b])) u where
  unbounded := hconfig ▸ h.unbounded
  exclusive := by simp [hfv]
  inProgress := hprog
  held := fun f => iff_of_false (fun hf => hends (((h.frameEndingHere_concat b f).mp hf).imp_right And.left))
    (by simp [hfv])

/-- FEED follows the input by its byte (R221 to R228). -/
theorem FollowsInput.feed {p : List Byte} {t : State} (h : FollowsInput p none t) (b : Byte) :
    FollowsInput (p ++ [b]) (frameEndingHere (p ++ [b])) (feedByte b t) := by
  have hprog := h.inProgress_concat b
  have hfv := h.fv_of_none
  by_cases hsox : b = soxByte
  · subst hsox
    rw [feedByte_sox]
    refine h.concat_of_none rfl rfl (fun ⟨heox, _⟩ => absurd heox (by decide)) fun f => ?_
    rw [hprog, startFrame_mem, startFrame_len, memBytes_append]
    simp [memBytes]
  have hprog := fun f => (hprog f).trans (or_iff_right fun ⟨hb, _⟩ => hsox hb)
  cases hrx : t.rx with
  | false =>
    rw [feedByte_of_idle hsox hrx]
    refine h.concat_of_none rfl hfv (fun ⟨_, hreceiving⟩ => ?_) fun f => ?_
    · cases hrx.symm.trans hreceiving
    · simp [hprog, hrx]
  | true =>
    obtain ⟨rfl, heq⟩ | ⟨heox, hdata, heq⟩ | ⟨heox, hdata, heq⟩ := feedByte_of_unbounded h.unbounded hsox hrx
    · rw [heq]
      refine ⟨h.unbounded, nofun, fun f => ?_, fun f => ?_⟩
      · rw [hprog]
        simp
      · rw [h.frameEndingHere_concat, completeFrame_mem, completeFrame_len, memBytes_append]
        simp [hrx]
    · rw [heq]
      refine h.concat_of_none rfl hfv (fun ⟨hb, _⟩ => heox hb) fun f => ?_
      rw [hprog, appendByte_mem, appendByte_len, memBytes_append]
      simp [hdata]
    · rw [heq]
      refine h.concat_of_none rfl hfv (fun ⟨hb, _⟩ => heox hb) fun f => ?_
      simp [hprog, hdata]

/-- TAKE returns the held frame and follows the input where it stands (R230). -/
theorem FollowsInput.take {p : List Byte} {held : Option (List Byte)} {t : State} (h : FollowsInput p held t) :
    ∃ r, exec .take t = .next r ∧ FollowsInput p none r ∧ ReturnsFrames t r held.toList := by
  obtain ⟨hfv, he⟩ | ⟨hfv, he⟩ := exec_take_cases t
  · have hrx : t.rx = false := Bool.eq_false_iff.mpr fun hrx => h.exclusive ⟨hrx, hfv⟩
    obtain rfl : held = some (memBytes t.mem t.len) := (h.held _).mpr ⟨hfv, rfl⟩
    refine ⟨_, he, ⟨h.unbounded, by simp, fun f => ?_, by simp⟩, _, rfl, rfl⟩
    rw [h.inProgress]
    simp [hrx]
  · obtain rfl : held = none := Option.eq_none_iff_forall_ne_some.mpr fun f hf => by
      simp [hfv, h.held] at hf
    exact ⟨_, he, ⟨h.unbounded, h.exclusive, h.inProgress, h.held⟩, _, rfl, rfl⟩

theorem feedInstr_ne_take (b : Byte) : feedInstr b ≠ .take := fun heq => by
  obtain ⟨hop, -⟩ := feedInstr_fields b
  rw [heq] at hop
  cases hop

/-- A FEED and a TAKE return the frame that the byte ends, if it ends one. -/
theorem FollowsInput.feed_take {p : List Byte} {t : State} (h : FollowsInput p none t) (b : Byte) :
    ∃ r, (∀ is, execAll (feedInstr b :: .take :: is) t = execAll is r) ∧ FollowsInput (p ++ [b]) none r ∧
      ReturnsFrames t r (frameEndingHere (p ++ [b])).toList := by
  have hfeed := exec_feedInstr_eq_feedByte b t
  obtain ⟨r, htake, hr, hreturns⟩ := (h.feed b).take
  exact ⟨r, fun is => (execAll_cons_of_next hfeed _).trans (execAll_cons_of_next htake is), hr,
    (returnsFrames_nil_of_ne_take (feedInstr_ne_take b) hfeed).append hreturns⟩

/-- The rest `bs` of an input, of which `p` has been fed and its frames returned since `s`. -/
theorem FollowsInput.feed_take_all {s : State} (bs : List Byte) {p : List Byte} {t : State} (h : FollowsInput p none t)
    (hreturned : ReturnsFrames s t (framesOf p)) :
    ∃ r, execAll (bs.flatMap fun b => [feedInstr b, .take]) t = .next r ∧ ReturnsFrames s r (framesOf (p ++ bs)) := by
  induction bs generalizing p t with
  | nil =>
    rw [List.append_nil]
    exact ⟨t, rfl, hreturned⟩
  | cons b bs ih =>
    obtain ⟨r, hrun, hr, hreturns⟩ := h.feed_take b
    have hsofar := hreturned.append hreturns
    rw [← framesOf_concat] at hsofar
    rw [List.append_cons]
    obtain ⟨r', hrest, hr'⟩ := ih hr hsofar
    exact ⟨r', (hrun _).trans hrest, hr'⟩

/-- Settles O38: by induction on the input; in progress is what begins with its last SOX, and EOX makes a frame of it. -/
theorem framesReturnedAreTheFramesOfTheInput : Obligations.FramesReturnedAreTheFramesOfTheInput := by
  intro s bs hrx hfv hmax
  obtain ⟨t, hrun, evs, hemits, hframes⟩ := (followsInput_nil hrx hfv hmax).feed_take_all bs (.silent (s := s) rfl)
  refine ⟨t, hrun, ⟨evs, hemits.symm⟩, ?_⟩
  rw [hemits, List.drop_left, hframes, List.nil_append]

end Sys2Proof.Machine
end

section
/-! PROOF. The control unit: which rule a step runs (R31, R262), what every step keeps (R47), an ILLEGAL word (R261) and NOP
(R260). -/

namespace Sys2Proof.Machine

/-! ### A step on a word that decodes -/

/-- The word is consumed, and the decoded command's rule is the whole of the step (R31, R262). -/
theorem step_of_decoded {s : State} {w : CmdWord} {rest : List PortInput} (hport : s.port = .word w :: rest)
    {i : Instr} (hdec : decode w = .ok i) : step s = exec i (s.setPort rest) := by
  rw [step_word hport, stepWord, hdec]

/-- A full-width table word stands first on the port as it is (log entry 9). -/
theorem withFetchWord_toNat (s : State) (w : CmdWord) :
    s.withFetchWord 24 w.toNat = s.setPort (.word w :: s.port) := by
  rw [State.withFetchWord, presentFirst, Nat.mod_eq_of_lt w.isLt, BitVec.ofNat_toNat, BitVec.setWidth_eq]

/-- Settles O9: a presented word is consumed, which gives back the state it was presented to. -/
theorem stepRunsTheDecodedCommand : Obligations.StepRunsTheDecodedCommand := by
  refine fun s w i hdec => ⟨fun rest hport => step_of_decoded hport hdec, ?_⟩
  rw [withFetchWord_toNat]
  exact step_of_decoded rfl hdec

/-! ### What every step keeps -/

/-- No command consumes an input: its word is consumed before it runs (R31). -/
theorem port_of_exec {i : Instr} {s t : State} (h : exec i s = .next t) : t.port = s.port := by
  obtain ⟨r, hexec⟩ := exec_setPort i s
  cases h.symm.trans (hexec s.port)
  rfl

/-- A step consumes the input it was presented, and no other (R31). -/
theorem step_port {s t : State} (hstep : step s = .next t) : t.port = s.port.tail := by
  obtain ⟨hport, rfl⟩ | ⟨rest, hport, rfl⟩ | ⟨w, why, rest, hport, -, rfl⟩ | ⟨w, i, rest, hport, hdec, -⟩ :=
    step_cases hstep
  · rw [hport, List.tail_nil]
  · rw [hport, List.tail_cons, State.resetUnits_port, State.setPort_port]
  · rw [hport, List.tail_cons, State.raise_port, State.setPort_port]
  · rw [step_of_decoded hport hdec] at hstep
    rw [hport, List.tail_cons, port_of_exec hstep, State.setPort_port]

/-- No step changes the build's MAX_FRAME_LEN (R47). -/
theorem step_config {s t : State} (hstep : step s = .next t) : t.config = s.config :=
  step_keeps (P := fun r => r.config = s.config) (fun _ _ h => h) (fun _ h => h)
    (fun _ _ _ _ heffect h => heffect.config.trans h) hstep rfl

/-- A step takes no event back (R44). -/
theorem step_out_prefix {s t : State} (hstep : step s = .next t) : s.out <+: t.out := by
  obtain ⟨evs, hout, -⟩ := step_lastErr hstep
  exact ⟨evs, hout.symm⟩

/-- Settles O13: a step always has a next state, and the three things that it keeps hold of any next state. -/
theorem everyStepCompletes : Obligations.EveryStepCompletes := fun s => by
  obtain ⟨t, hstep⟩ := exists_step s
  exact ⟨t, hstep, step_port hstep, step_config hstep, step_out_prefix hstep⟩

/-! ### ILLEGAL words and NOP -/

/-- A raise writes LAST_ERR only, in every unit (R272, R277). -/
theorem raise_frame (s : State) (c : ErrCode) :
    SameAssembler s (s.raise c) ∧ SameUnpacker s (s.raise c) ∧ SamePacker s (s.raise c) :=
  ⟨⟨⟨rfl, rfl, rfl⟩, fun _ => rfl⟩, ⟨rfl, rfl⟩, rfl, rfl⟩

/-- Settles O10: the step on an ILLEGAL word is one raise, with the word consumed. -/
theorem illegalWordRaisesIllegalCmd : Obligations.IllegalWordRaisesIllegalCmd := by
  intro s w why rest hport hdec
  obtain ⟨hassembler, hunpacker, hpacker⟩ := raise_frame (s.setPort rest) .illegalCmd
  have hstatus : ((s.setPort rest).raise .illegalCmd).status.extractLsb' 2 2 = 3 := by
    rw [status_lastErr, State.raise_lastErr]
    rfl
  exact ⟨_, step_of_illegal hport hdec, rfl, rfl, hstatus, hassembler, hunpacker, hpacker, rfl, rfl⟩

theorem exec_nop (s : State) : exec .nop s = .next s := rfl

/-- Settles O22: a 1 in DATA is R108's item 4, as NOP has no byte operand. -/
theorem nopChangesNothing : Obligations.NopChangesNothing := by
  have hillegal : IllegalCondition 0x000001 := .inr (.inr (.inr (.inl (by decide))))
  exact ⟨decode_encode (i := .nop) rfl, (decode_eq_error_iff _).mpr hillegal, exec_nop⟩

end Sys2Proof.Machine
end

section
/-! PROOF. The errors of one step (R274): which command raises which code, and that no step raises two. -/

namespace Sys2Proof.Machine

/-! ### The codes raised from one state to another -/

/-- The codes on ERR from `s` to `t`, in order. -/
def raisedCodes (s t : State) : List ErrCode := errCodes (t.out.drop s.out.length)

theorem raisedCodes_of_emits {s t : State} {evs : List Event} (h : Emits s t evs) : raisedCodes s t = errCodes evs := by
  rw [raisedCodes, h, List.drop_left]

theorem raisedCodes_of_silent {s t : State} (h : t.out = s.out) : raisedCodes s t = [] :=
  raisedCodes_of_emits (h.trans (List.append_nil _).symm)

theorem raisedCodes_raise (s : State) (c : ErrCode) : raisedCodes s (s.raise c) = [c] :=
  raisedCodes_of_emits (State.raise_out s c)

theorem raisedCodes_abortFrame (s : State) (c : ErrCode) : raisedCodes s (abortFrame s c) = [c] :=
  raisedCodes_raise s c

/-! ### Which command raises which code -/

/-- Only a FEED of EOX, a data byte or a status byte can raise an error. -/
theorem CommandEffect.raisedCodes_eq_nil {s t : State} {i : Instr} (heffect : CommandEffect s i t)
    (hi : ¬ (i = .feedEox ∨ (∃ b, i = .feedData b) ∨ ∃ b, i = .feedStatus b)) : raisedCodes s t = [] := by
  cases heffect with
  | start => exact raisedCodes_of_silent rfl
  | append => exact raisedCodes_of_silent rfl
  | complete => exact raisedCodes_of_silent rfl
  | abort _ _ _ _ hfeed => exact absurd hfeed hi
  | takeFrame => exact raisedCodes_of_emits (evs := [.frame (some (memBytes s.mem s.len))]) rfl
  | reset => exact raisedCodes_of_silent rfl
  | aside _ _ _ haside =>
    obtain ⟨evs, hout, hnone⟩ := haside.noError
    exact (raisedCodes_of_emits hout).trans hnone

/-- What R274 lets command `i` put on ERR: nothing, or the one code of its input byte's class. -/
def MayRaise (i : Instr) (codes : List ErrCode) : Prop :=
  codes = [] ∨
  ((∃ b, i = .feedStatus b) ∧ codes = [.protocol]) ∨
  ((i = .feedEox ∨ ∃ b, i = .feedData b) ∧ codes = [.overflow])

theorem mayRaise_of_exec {i : Instr} {s t : State} (h : exec i s = .next t) : MayRaise i (raisedCodes s t) := by
  cases i with
  | feedEox =>
    obtain ⟨-, he⟩ | ⟨-, -, he⟩ | ⟨-, -, he⟩ := exec_feedEox_cases s <;> cases he.symm.trans h
    · exact .inl (raisedCodes_of_silent rfl)
    · exact .inl (raisedCodes_of_silent rfl)
    · exact .inr (.inr ⟨.inl rfl, raisedCodes_abortFrame s .overflow⟩)
  | feedData b =>
    obtain ⟨-, he⟩ | ⟨-, -, he⟩ | ⟨-, -, he⟩ := exec_feedData_cases b s <;> cases he.symm.trans h
    · exact .inl (raisedCodes_of_silent rfl)
    · exact .inl (raisedCodes_of_silent rfl)
    · exact .inr (.inr ⟨.inr ⟨b, rfl⟩, raisedCodes_abortFrame s .overflow⟩)
  | feedStatus b =>
    obtain ⟨-, he⟩ | ⟨-, he⟩ := exec_feedStatus_cases b s <;> cases he.symm.trans h
    · exact .inl (raisedCodes_of_silent rfl)
    · exact .inr (.inl ⟨⟨b, rfl⟩, raisedCodes_abortFrame s .protocol⟩)
  | _ => exact .inl ((effect_of_exec h).raisedCodes_eq_nil (by simp))

/-! ### The step -/

/-- No input, be it a word, a reset or none at all, raises two errors. -/
theorem length_raisedCodes_of_step {s t : State} (hstep : step s = .next t) : (raisedCodes s t).length ≤ 1 := by
  obtain ⟨evs, hout, hraise | ⟨hnone, -⟩⟩ := step_lastErr hstep
  · obtain ⟨c, -, hone, -⟩ := hraise
    rw [raisedCodes_of_emits hout, hone, List.length_singleton]
  · rw [raisedCodes_of_emits hout, hnone]
    exact Nat.zero_le 1

/-- Settles O15: the events of a word's step are those of its command, or of the one raise of an ILLEGAL word, and a status
byte raises PROTOCOL at every LEN. -/
theorem atMostOneErrorPerStep : Obligations.AtMostOneErrorPerStep := by
  refine ⟨fun s t hstep => length_raisedCodes_of_step hstep, fun s t w rest hport hstep => ?_, fun s b hrx _ => ?_⟩
  · cases hdec : decode w with
    | error why =>
      cases (step_of_illegal hport hdec).symm.trans hstep
      exact raisedCodes_raise (s.setPort rest) .illegalCmd
    | ok i =>
      rw [step_of_decoded hport hdec] at hstep
      have hcodes : MayRaise i (raisedCodes (s.setPort rest) t) := mayRaise_of_exec hstep
      exact hcodes
  · exact ⟨_, exec_feedStatus_of_receiving hrx b, rfl⟩

end Sys2Proof.Machine
end

section
/-! PROOF. Reset by command and by the `rst` input (R300, R301), the idle step (R316), and an untaken frame at the next start
(R306). -/

namespace Sys2Proof.Machine

/-! ### RESET -/

theorem exec_reset (s : State) : exec .reset s = .next s.resetUnits := rfl

/-- Where the registers already hold their reset values there is nothing left to write: MEM, U_HB and P_BUF are not. -/
theorem AtReset.resetUnits_eq {s : State} (h : AtReset s) : s.resetUnits = s := by
  cases s
  obtain ⟨rfl, rfl, rfl, rfl, rfl, rfl⟩ := h
  rfl

/-- Settles O20: the second RESET finds every register at its reset value. -/
theorem resetCommand : Obligations.ResetCommand := by
  refine ⟨by decide, fun s => ⟨s.resetUnits, exec_reset s, atReset_resetUnits s, ?_⟩⟩
  have hmem : SameMem s s.resetUnits := fun _ => rfl
  have hsilent : Emits s s.resetUnits [] := (List.append_nil s.out).symm
  have hagain : exec .reset s.resetUnits = .next s.resetUnits := by
    rw [exec_reset, (atReset_resetUnits s).resetUnits_eq]
  exact ⟨hmem, s.resetUnits_uHb, s.resetUnits_pBuf, hsilent, ⟨s.resetUnits_port, s.resetUnits_config⟩, hagain⟩

/-! ### The inputs that are no command word -/

/-- `rst` is consumed like a word, and the rest of the step is RESET (R301, log entry 8). -/
theorem step_rst_eq_exec_reset {s : State} {rest : List PortInput} (hport : s.port = .rst :: rest) :
    step s = exec .reset (s.setPort rest) :=
  (step_rst hport).trans (exec_reset _).symm

/-- Settles O11: RESET leaves the registers at their reset values and the rest of the port as it is. -/
theorem hardwareResetActsAsReset : Obligations.HardwareResetActsAsReset := fun s rest hport =>
  ⟨step_rst_eq_exec_reset hport, (s.setPort rest).resetUnits, (step_rst_eq_exec_reset hport).trans (exec_reset _),
    atReset_resetUnits _, State.resetUnits_port _⟩

/-- Settles O12: with an empty port the step is the idle one. -/
theorem stepWithNothingPresentedIsIdle : Obligations.StepWithNothingPresentedIsIdle := fun _ hport => step_idle hport

/-! ### An untaken frame -/

@[simp] theorem startFrame_fv (s : State) (b : Byte) : (startFrame s b).fv = false := rfl

@[simp] theorem startFrame_lastErr (s : State) (b : Byte) : (startFrame s b).lastErr = s.lastErr := rfl

@[simp] theorem startFrame_out (s : State) (b : Byte) : (startFrame s b).out = s.out := rfl

/-- SOX drops whatever frame is held, so a TAKE right after it emits None (R221, R230). -/
theorem execAll_feedSox_take (s : State) :
    execAll [.feedSox, .take] s = .next ((startFrame s soxByte).emit [.frame none]) :=
  calc execAll [.feedSox, .take] s
    _ = execAll [.take] (startFrame s soxByte) := execAll_cons_of_next (exec_feedSox s) _
    _ = execAll [] ((startFrame s soxByte).emit [.frame none]) :=
      execAll_cons_of_next (exec_take_of_not_held (startFrame_fv s soxByte)) _

/-- Settles O33: neither starting a frame nor the TAKE that finds none writes LAST_ERR. -/
theorem untakenFrameIsLostAtTheNextStart : Obligations.UntakenFrameIsLostAtTheNextStart := fun s _ => by
  refine ⟨_, execAll_feedSox_take s, ?_, ?_⟩
  · rw [Emits, State.emit_out, startFrame_out]
  · rw [State.emit_lastErr, startFrame_lastErr]

end Sys2Proof.Machine
end

section
/-! PROOF. The decoder and the encoder are inverse to each other on the well-formed commands (R101, R112, R113). -/

namespace Sys2Proof.Machine

/-- Settles O1: the four fields of the command's word are its opcode and operands, so the decoder passes both checks of R108,
and its case on OP rebuilds the command by R105's byte classes and EXTRACT's bounds. -/
theorem decodeEncodeRoundTrip : Obligations.DecodeEncodeRoundTrip := fun _ hwf => decode_encode hwf

/-- Settles O2: R108's checks leave no bit of the word outside the command's fields, and the case on OP admits well-formed
commands only. -/
theorem decodedWordIsEncoding : Obligations.DecodedWordIsEncoding := fun _ _ hdec => encode_eq_of_decode hdec

end Sys2Proof.Machine
end
